-- ==== Sys2Proof/Word.lean ====
section
/-! DEFINITION. The value of the machine: a signed 64-bit integer, held as an integer with its range. -/

namespace Sys2Proof

/-- The integer `z` is a signed 64-bit value, `-2^63 ≤ z ≤ 2^63 - 1` (R6 `XLEN`, R7 `I64`). -/
abbrev InI64 (z : Int) : Prop := -9223372036854775808 ≤ z ∧ z ≤ 9223372036854775807

/-- A value of the machine: every memory cell, queue element, operand and result (R6, R7).
The spec states every rule on integers and never on bits (R7), so a value is an integer with its
range and not a bit vector (log 2, DEDUCED, safe). -/
@[ext]
structure I64 where
  toInt : Int
  inRange : InI64 toInt
deriving DecidableEq, Repr

/-- The value 0: what a cell never written reads as (R41), and false (R132). -/
def I64.zero : I64 := ⟨0, by decide⟩

/-- The value 1: true (R132). -/
def I64.one : I64 := ⟨1, by decide⟩

end Sys2Proof
end

