-- ==== Sys2Proof/Config.lean ====
section
/-! DEFINITION. What is fixed for a machine: the constants of R6 and the one build parameter. -/

namespace Sys2Proof

/-- `ADDR_MAX = 2^63 - 1`, the greatest legal address (R6, R45; decision D2 of the spec). -/
abbrev addrMax : Nat := 9223372036854775807

/-- The greatest integer that has a five-digit decimal representation (R6 `WORD_DIGITS`, R63). -/
abbrev maxInstructionWord : Int := 99999

/-- The build parameters of an instance that a model may vary (R6, "Named parameters left to the model").
`hasArb` is `HAS_ARB`: whether the optional opcode 9 of R146 exists. -/
structure Params where
  hasArb : Bool
deriving DecidableEq, Repr

/-- The spec's default: `HAS_ARB = false`, the machine of the source (R145; log 4). -/
def Params.default : Params := ⟨false⟩

end Sys2Proof
end

