-- ==== Sys2Proof/Syntax.lean ====
section
/-! DEFINITION. The instruction set as syntax: modes, slots, the instructions of the opcode table, and the
names of the faults. -/

namespace Sys2Proof

/-- A parameter mode (R67): digit 0 Position, 1 Immediate, 2 Relative. -/
inductive Mode where
  | position
  | immediate
  | relative
deriving DecidableEq, Repr

/-- A slot: the index 1, 2 or 3 of a parameter and of its mode digit (R14). -/
inductive Slot where
  | p1
  | p2
  | p3
deriving DecidableEq, Repr

/-- The instructions (R64, and R146 for `arb`), one constructor per row of the opcode table.
Each carries exactly the three modes that `Decode` returns, "even when the opcode uses fewer" (R70, R72);
parameter cells are no part of a decoded instruction (R60), they are read when it executes (R90). -/
inductive Instr where
  | add (m1 m2 m3 : Mode)
  | mul (m1 m2 m3 : Mode)
  | inp (m1 m2 m3 : Mode)
  | out (m1 m2 m3 : Mode)
  | jt (m1 m2 m3 : Mode)
  | jf (m1 m2 m3 : Mode)
  | lt (m1 m2 m3 : Mode)
  | eq (m1 m2 m3 : Mode)
  | hlt (m1 m2 m3 : Mode)
  | arb (m1 m2 m3 : Mode)
deriving DecidableEq, Repr

/-- The fault causes, codes 1 to 7 of R181. -/
inductive FaultCause where
  | unknownOpcode
  | unknownParameterMode
  | immediateWriteTarget
  | instructionWordOutOfRange
  | addressOutOfRange
  | arithmeticOverflow
  | runAfterHalt
deriving DecidableEq, Repr

/-- `Fault(cause, slot)`, the argument of `raise` (R10). No slot is the spec's slot 0 (R27). -/
structure Raise where
  cause : FaultCause
  slot : Option Slot
deriving DecidableEq, Repr

end Sys2Proof
end

