-- ==== Sys2Proof/WellFormed.lean ====
section
/-! DEFINITION. Which instruction terms some instruction word decodes to: the one check is R71's. -/

namespace Sys2Proof

/-- The mode of a slot. -/
def Instr.mode : Instr → Slot → Mode
  | .add m1 m2 m3, k | .mul m1 m2 m3, k | .inp m1 m2 m3, k | .out m1 m2 m3, k | .jt m1 m2 m3, k
  | .jf m1 m2 m3, k | .lt m1 m2 m3, k | .eq m1 m2 m3, k | .hlt m1 m2 m3, k | .arb m1 m2 m3, k =>
    match k with
    | .p1 => m1
    | .p2 => m2
    | .p3 => m3

/-- `wslot(op)`: the write slot of each opcode (R66; R147 for `arb`). -/
def Instr.writeSlot : Instr → Option Slot
  | .add _ _ _ | .mul _ _ _ | .lt _ _ _ | .eq _ _ _ => some .p3
  | .inp _ _ _ => some .p1
  | .out _ _ _ | .jt _ _ _ | .jf _ _ _ | .hlt _ _ _ | .arb _ _ _ => none

/-- Immediate is illegal in the write slot, and in no other (R70, R71). -/
def Instr.wellFormed (i : Instr) : Bool :=
  match i.writeSlot with
  | none => true
  | some k => i.mode k != .immediate

/-- `i` is one of the instructions that a legal word stands for (R76). -/
abbrev WellFormed (i : Instr) : Prop := i.wellFormed = true

end Sys2Proof
end

