-- ==== Sys2Proof/Decode.lean ====
section
/-! DEFINITION. The decoder, total on every cell value and rejecting by name, then the encoder, then the
reading of the opcode table's numbered bits. -/

namespace Sys2Proof

/-- The number of a slot, and so the offset of its parameter cell from `ip` (R48, R90). -/
def Slot.offset : Slot → Nat
  | .p1 => 1
  | .p2 => 2
  | .p3 => 3

/-- The mode of a mode digit: 0, 1 or 2, and none for 3 to 9 (R67, R69). -/
def modeOfDigit : Nat → Option Mode
  | 0 => some .position
  | 1 => some .immediate
  | 2 => some .relative
  | _ => none

/-- `digit_i(w)`, digit `i` of a word written in decimal, digit 0 the low-order one (R8). -/
def digit (i w : Nat) : Nat := w / 10 ^ i % 10

/-- The opcode table (R64): what an opcode makes of its three modes; none for an unknown opcode (R68).
Opcode 9 is in the table only when `HAS_ARB` (R77, R147). -/
def opcodeRow (hasArb : Bool) : Nat → Option (Mode → Mode → Mode → Instr)
  | 1 => some .add
  | 2 => some .mul
  | 3 => some .inp
  | 4 => some .out
  | 5 => some .jt
  | 6 => some .jf
  | 7 => some .lt
  | 8 => some .eq
  | 9 => if hasArb then some .arb else none
  | 99 => some .hlt
  | _ => none

/-- The mode in slot `k` of the word `w`, or the fault `UNKNOWN_PARAMETER_MODE` of that slot (R62, R69). -/
def decodeMode (w : Nat) (k : Slot) : Except Raise Mode :=
  let d := match k with
    | .p1 => digit 2 w
    | .p2 => digit 3 w
    | .p3 => digit 4 w
  match modeOfDigit d with
  | some m => .ok m
  | none => .error ⟨.unknownParameterMode, some k⟩

/-- The Immediate-write-target check, part of decoding (R71). -/
def checkWriteTarget (i : Instr) : Except Raise Instr :=
  if i.wellFormed then .ok i else .error ⟨.immediateWriteTarget, i.writeSlot⟩

/-- `Decode` on a word that has a five-digit form (R72): opcode, then the modes in slot order, then the
write target (R73). -/
def decodeDigits (hasArb : Bool) (w : Nat) : Except Raise Instr :=
  match opcodeRow hasArb (w % 100) with
  | none => .error ⟨.unknownOpcode, none⟩
  | some row => do
    let m1 ← decodeMode w .p1
    let m2 ← decodeMode w .p2
    let m3 ← decodeMode w .p3
    checkWriteTarget (row m1 m2 m3)

/-- `Decode(w)`, total on every cell value (R72). A word below 0 or above 99999 spells no instruction (R63). -/
def decode (hasArb : Bool) (w : I64) : Except Raise Instr :=
  if w.toInt < 0 ∨ maxInstructionWord < w.toInt then .error ⟨.instructionWordOutOfRange, none⟩
  else decodeDigits hasArb w.toInt.toNat

/-! The encoder, from the same tables. -/

/-- The digit of a mode (R67). -/
def Mode.digit : Mode → Nat
  | .position => 0
  | .immediate => 1
  | .relative => 2

/-- The opcode of an instruction (R64, R146). -/
def Instr.opcode : Instr → Nat
  | .add _ _ _ => 1
  | .mul _ _ _ => 2
  | .inp _ _ _ => 3
  | .out _ _ _ => 4
  | .jt _ _ _ => 5
  | .jf _ _ _ => 6
  | .lt _ _ _ => 7
  | .eq _ _ _ => 8
  | .hlt _ _ _ => 99
  | .arb _ _ _ => 9

/-- `len(op)`: the length of an instruction in cells, its word included (R64, R74; R147 for `arb`). -/
def Instr.len : Instr → Nat
  | .add _ _ _ | .mul _ _ _ | .lt _ _ _ | .eq _ _ _ => 4
  | .jt _ _ _ | .jf _ _ _ => 3
  | .inp _ _ _ | .out _ _ _ | .arb _ _ _ => 2
  | .hlt _ _ _ => 1

/-- `op + 100*m1 + 1000*m2 + 10000*m3` (R62). -/
def encodeNat (i : Instr) : Nat :=
  i.opcode + 100 * (i.mode .p1).digit + 1000 * (i.mode .p2).digit + 10000 * (i.mode .p3).digit

/-- A natural number below `2^63` as a value; anything else as 0 (only numbers below `2^63` are given to it). -/
def I64.ofNatSmall (n : Nat) : I64 :=
  if h : n ≤ 9223372036854775807 then ⟨n, by constructor <;> omega⟩ else I64.zero

/-- The instruction word of an instruction (R62, R76). -/
def encode (i : Instr) : I64 := I64.ofNatSmall (encodeNat i)

/-! The table's bits. The spec lays no instruction out in bits (R8); how a numbered bit string stands for
cells is the model's convention (log 7, DESIGN CHOICE, safe): cell `k` is bits `64k+63 .. 64k` read as a
signed two's-complement number. -/

/-- The signed value of 64 bits. -/
def I64.ofBits (n : Nat) : I64 :=
  if h : n % 18446744073709551616 ≤ 9223372036854775807 then ⟨n % 18446744073709551616, by constructor <;> omega⟩
  else ⟨n % 18446744073709551616 - 18446744073709551616, by constructor <;> omega⟩

/-- Cell `k` of an instruction whose bits are the low `nbits` bits of `w`, every higher bit 0. -/
def tableCell (nbits w k : Nat) : I64 := I64.ofBits (w % 2 ^ nbits / 2 ^ (64 * k))

/-- The instruction the decoder reads from a row's bits. The table lists the optional `ARB`, so it is read
with `HAS_ARB = true`; for every word of opcode other than 9 that changes nothing (R147; log 4). -/
def decodeTableWord (nbits w : Nat) : Option Instr :=
  match decode true (tableCell nbits w 0) with
  | .ok i => some i
  | .error _ => none

end Sys2Proof
end

