-- ==== Sys2Proof/Machine/State.lean ====
section
/-! DEFINITION. The state of one instance (R20), the reasons a step can stop, and the state after reset. -/

namespace Sys2Proof.Machine

/-- The sparse memory: (address, cell) pairs, addresses strictly rising, no cell equal to 0, which is what
an unlisted address reads as (R28, R32, R41, R43). The unit is the cell, not the byte (R40, R47; log 1). -/
abbrev Memory := List (Nat × I64)

/-- The four values of the status register (R26). -/
inductive Status where
  | running
  | halted
  | blocked
  | faulted
deriving DecidableEq, Repr

/-- The state of one instance. Fields `mem` to `fslot` are the whole state of R20; `params` is the
instance's build parameter, which nothing writes (R6, R145; log 4). `fcause = none` is code 0 and
`fslot = none` is slot 0 (R27; log 11). -/
structure State where
  mem : Memory
  ip : Nat
  rb : I64
  inq : List I64
  outq : List I64
  st : Status
  fcause : Option FaultCause
  fip : Nat
  fword : I64
  fslot : Option Slot
  params : Params
deriving DecidableEq, Repr

/-- Why a step answers no state. The faults of the hardware are no members of this type: their entry is
described (R190) and is a next state. -/
inductive Fault where
  /-- Raised by `step` when `st = HALTED`: "No step is ever executed while st = HALTED" (R141). Safe: the
  machine stands still there; the model stops (log 5). -/
  | stepWhileHalted
  /-- Raised by `step` when `st = BLOCKED`: only `RUN` goes on from there (R153, R159). Safe, as above (log 5). -/
  | stepWhileBlocked
  /-- Raised by `step` when `st = FAULTED`: "nothing executes in FAULTED" (R191). Safe, as above (log 5). -/
  | stepWhileFaulted
deriving DecidableEq, Repr

/-- Why the model gives an instruction no meaning. -/
inductive Refusal where
  /-- Raised only by an arm of `exec` whose instruction has no meaning yet; every arm has one, so it is
  raised by nothing. Safe: the model stops. -/
  | notModelled (mnemonic : String)
deriving DecidableEq, Repr

/-- The state after `LOAD` of the empty program (R35, R210, R211), with the default parameters (R145).
The spec gives every one of these values. A program is placed by `LOAD` from outside (R158; log 6). -/
def State.reset : State where
  mem := []
  ip := 0
  rb := I64.zero
  inq := []
  outq := []
  st := .running
  fcause := none
  fip := 0
  fword := I64.zero
  fslot := none
  params := Params.default

end Sys2Proof.Machine
end

