-- ==== Sys2Proof/Machine/Ops.lean ====
section
/-! DEFINITION. The named operations: memory controller, queues, status, taking a fault, and what stands
beside it for a return, the resumption of a blocked instance. -/

namespace Sys2Proof.Machine

/-! Memory controller (R40 to R43). -/

/-- The canonical form: addresses strictly rising, every cell non-zero, every address legal. -/
abbrev Memory.wf (m : Memory) : Prop :=
  m.Pairwise (fun c d => c.1 < d.1) ∧ ∀ c ∈ m, c.2 ≠ I64.zero ∧ c.1 ≤ addrMax

/-- `MemRead(a, 1)`: the cell at `a`, 0 if it was never written (R41). -/
def Memory.read (m : Memory) (a : Nat) : I64 :=
  match m with
  | [] => I64.zero
  | c :: rest => if c.1 = a then c.2 else Memory.read rest a

/-- Puts the cell `(a, v)` before the first cell of a greater address. -/
def Memory.insert (m : Memory) (a : Nat) (v : I64) : Memory :=
  match m with
  | [] => [(a, v)]
  | c :: rest => if a < c.1 then (a, v) :: c :: rest else c :: Memory.insert rest a v

/-- The memory with no cell listed at `a`. -/
def Memory.erase (m : Memory) (a : Nat) : Memory := m.filter (fun c => c.1 != a)

/-- `MemWrite(a, 1, v)`: cell `a` holds `v` and no other cell changes (R42). Writing 0 lists nothing, since
a cell that holds 0 and a cell never written are the same cell (R43). -/
def Memory.write (m : Memory) (a : Nat) (v : I64) : Memory :=
  if v = I64.zero then m.erase a else (m.erase a).insert a v

/-- The image of a program: element `i` at address `a + i`, nothing else (R48, R158). -/
def Memory.ofProgram (a : Nat) : List I64 → Memory
  | [] => []
  | v :: rest =>
    if v = I64.zero then Memory.ofProgram (a + 1) rest else (a, v) :: Memory.ofProgram (a + 1) rest

/-- The `c` cells from address `a` on, in ascending order (R162). -/
def Memory.readRange (m : Memory) (a : Nat) : Nat → List I64
  | 0 => []
  | c + 1 => m.read a :: m.readRange (a + 1) c

/-! Writes to the state, one per piece of state an instruction writes. -/

/-- Writes one cell. -/
def State.writeCell (s : State) (a : Nat) (v : I64) : State := { s with mem := s.mem.write a v }

/-- `ip <- target`. -/
def State.setIp (s : State) (a : Nat) : State := { s with ip := a }

/-- `rb <- r`, done by `ARB` only (R146). -/
def State.setRb (s : State) (r : I64) : State := { s with rb := r }

/-- What is left of the input queue after `InPop()` (R113). -/
def State.setInq (s : State) (q : List I64) : State := { s with inq := q }

/-- `PUSH_INPUT`: appends the newest element of `inq` (R113, R159). -/
def State.pushInq (s : State) (v : I64) : State := { s with inq := s.inq ++ [v] }

/-- `OutPush(v)`: appends the newest element of `outq` (R113). -/
def State.pushOut (s : State) (v : I64) : State := { s with outq := s.outq ++ [v] }

/-- What is left of the output queue after the host's `POP_OUTPUT` (R113, R161). -/
def State.setOutq (s : State) (q : List I64) : State := { s with outq := q }

/-- `st <- x`. -/
def State.setSt (s : State) (x : Status) : State := { s with st := x }

/-- The instruction word the machine fetches: the cell at `ip` (R150). -/
def State.word (s : State) : I64 := s.mem.read s.ip

/-! Fault entry and resumption. -/

/-- Fault entry (R190): the fault record takes cause, slot, `ip` and the instruction word, `st` becomes
`FAULTED`, nothing else changes. There is no handler and `ip` keeps its value. -/
def State.takeFault (s : State) (r : Raise) : State :=
  { s with st := .faulted, fcause := some r.cause, fip := s.ip, fword := s.word, fslot := r.slot }

/-- How an instruction ends: its effect, or, where a `raise` abandoned it, fault entry from the state it
started in, so that it has done all of its writes or none (R10, R190). -/
def State.settle (s : State) (effect : Except Raise State) : Host.Outcome State Fault Refusal :=
  match effect with
  | .ok t => .next t
  | .error r => .next (s.takeFault r)

/-- What `RUN` does before it steps (R152): resume a blocked instance (R153), take the fault
`RUN_AFTER_HALT` from a halted one (R154), leave a faulted one as it is (R155). Faults have no return (R191);
the resumption of the blocked-on-input suspension is the nearest thing to one (R192). -/
def State.enterRun (s : State) : State :=
  match s.st with
  | .running => s
  | .blocked => s.setSt .running
  | .halted => s.takeFault ⟨.runAfterHalt, none⟩
  | .faulted => s

/-! The numbers the host sees in the status register and the fault record. -/

/-- The codes of `st` (R26). -/
def Status.code : Status → Nat
  | .running => 0
  | .halted => 1
  | .blocked => 2
  | .faulted => 3

/-- The codes of the causes (R181). -/
def causeCode : Option FaultCause → Nat
  | none => 0
  | some .unknownOpcode => 1
  | some .unknownParameterMode => 2
  | some .immediateWriteTarget => 3
  | some .instructionWordOutOfRange => 4
  | some .addressOutOfRange => 5
  | some .arithmeticOverflow => 6
  | some .runAfterHalt => 7

/-- The numbers of `fslot` (R27). -/
def slotCode : Option Slot → Nat
  | none => 0
  | some k => Slot.offset k

/-! Placing an instruction where the next step fetches it, for `State.withFetchWord`. -/

/-- Writes the values at `a`, `a + 1`, … as far as those addresses exist (R45). -/
def Memory.place (m : Memory) (a : Nat) : List I64 → Memory
  | [] => m
  | v :: rest => if a ≤ addrMax then (m.write a v).place (a + 1) rest else m

/-- The four cells of the longest instruction, made of table bits (log 7), placed at `ip`, with the machine
running. A word of the optional opcode 9 is an instruction only with `HAS_ARB`, so for such a word, and for
no other, the parameter is turned on (log 4). -/
def State.placeTableWord (s : State) (nbits w : Nat) : State :=
  { s with
    mem := s.mem.place s.ip [tableCell nbits w 0, tableCell nbits w 1, tableCell nbits w 2, tableCell nbits w 3]
    st := .running
    params := ⟨s.params.hasArb || (tableCell nbits w 0).toInt % 100 == 9⟩ }

end Sys2Proof.Machine
end

