-- ==== Sys2Proof/Machine/Flags.lean ====
section
/-! DEFINITION. The machine has no flags and no condition codes (R25). What stands in their place is here:
the range check of a result, the 0/1 value of a comparison, the truth of a jump's condition. -/

namespace Sys2Proof.Machine

/-- An exact result as a value, or the fault `ARITHMETIC_OVERFLOW`: no wrap, no saturation (R103, R187; log 3). -/
def checkResult (z : Int) : Except Raise I64 :=
  if h : InI64 z then .ok ⟨z, h⟩ else .error ⟨.arithmeticOverflow, none⟩

/-- A comparison's result is exactly 1 or exactly 0 (R132). -/
def truthValue (b : Bool) : I64 := if b then I64.one else I64.zero

/-- The strict order of the integers (R130, R132). -/
def lessThan (a b : I64) : Bool := a.toInt < b.toInt

/-- Equality of the integers (R131, R132). -/
def equals (a b : I64) : Bool := a.toInt == b.toInt

/-- "every non-zero condition is true, negative included" (R120). -/
def isNonZero (c : I64) : Bool := c.toInt != 0

/-- "only exactly 0 is false" (R121). -/
def isZero (c : I64) : Bool := c.toInt == 0

end Sys2Proof.Machine
end

