-- ==== Sys2Proof/Machine/Operands.lean ====
section
/-! DEFINITION. The address-computation engine: operand and destination resolution, the range of computed
addresses, and the five instruction formats. -/

namespace Sys2Proof.Machine

/-- A computed address, formed in the integers, as an address, or the fault `ADDRESS_OUT_OF_RANGE`: no clamp
and no wrap (R44, R45, R95, R186; log 3). -/
def checkAddr (slot : Option Slot) (z : Int) : Except Raise Nat :=
  if 0 ≤ z ∧ z ≤ addrMax then .ok z.toNat else .error ⟨.addressOutOfRange, slot⟩

/-- `ParamCell(k)`: the parameter cell at `ip + k` (R90). -/
def paramCell (s : State) (k : Slot) : Except Raise I64 := do
  let a ← checkAddr (some k) (s.ip + k.offset)
  pure (s.mem.read a)

/-- `EffAddr(k, m)`: the address that Position or Relative mode computes from the parameter cell (R91, R93,
R94). Immediate computes none: it is illegal for a destination, and the decoder has refused it (R71, R94; log 9). -/
def effAddr (s : State) (k : Slot) (m : Mode) : Except Raise Nat :=
  match m with
  | .position => do
    let p ← paramCell s k
    checkAddr (some k) p.toInt
  | .relative => do
    let p ← paramCell s k
    checkAddr (some k) (s.rb.toInt + p.toInt)
  | .immediate => .error ⟨.immediateWriteTarget, some k⟩

/-- `ResolveRead(k, m)`: the value of a read parameter (R91 to R93). -/
def resolveRead (s : State) (k : Slot) (m : Mode) : Except Raise I64 :=
  match m with
  | .immediate => paramCell s k
  | .position => do
    let a ← effAddr s k .position
    pure (s.mem.read a)
  | .relative => do
    let a ← effAddr s k .relative
    pure (s.mem.read a)

/-- `ResolveWrite(k, m)`: the address of a write parameter, not dereferenced (R94). -/
def resolveWrite (s : State) (k : Slot) (m : Mode) : Except Raise Nat := effAddr s k m

/-- `AdvanceOK(len)`, answering `ip + len`, the address of the next instruction word (R23, R186). -/
def advance (s : State) (len : Nat) : Except Raise Nat := checkAddr none (s.ip + len)

/-! The formats of R65. The parameters are resolved in slot order, each completely, before every other
check and before every write (R58, R96, R189). -/

/-- Format RRW (R65): two operands, a result computed from them, a destination (R100, R101, R130, R131). -/
def effectRRW (result : I64 → I64 → Except Raise I64) (m1 m2 m3 : Mode) (s : State) : Except Raise State := do
  let a ← resolveRead s .p1 m1
  let b ← resolveRead s .p2 m2
  let d ← resolveWrite s .p3 m3
  let next ← advance s 4
  let v ← result a b
  pure ((s.writeCell d v).setIp next)

/-- Where a jump goes on: at its target, whose range is then checked, or at the next instruction (R120 to R122). -/
def jumpNext (s : State) (taken : Bool) (target : I64) : Except Raise Nat :=
  if taken then checkAddr (some .p2) target.toInt else advance s 3

/-- Format RR (R65): a jump. Both operands are resolved whether or not the jump is taken; the target's range
is examined only when it is (R120 to R122). -/
def effectRR (taken : I64 → Bool) (m1 m2 : Mode) (s : State) : Except Raise State := do
  let c ← resolveRead s .p1 m1
  let t ← resolveRead s .p2 m2
  let next ← jumpNext s (taken c) t
  pure (s.setIp next)

/-- Format R (R65): one operand, and what is done with it (R112, R146). -/
def effectR (use : I64 → State → Except Raise State) (m1 : Mode) (s : State) : Except Raise State := do
  let a ← resolveRead s .p1 m1
  let next ← advance s 2
  let t ← use a s
  pure (t.setIp next)

/-- Format W (R65): `IN`. The address faults come before the queue test; an empty queue suspends and changes
nothing but `st` (R110, R111). -/
def effectW (m1 : Mode) (s : State) : Except Raise State := do
  let d ← resolveWrite s .p1 m1
  let next ← advance s 2
  pure (match s.inq with
    | [] => s.setSt .blocked
    | v :: rest => ((s.setInq rest).writeCell d v).setIp next)

end Sys2Proof.Machine
end

