-- ==== Sys2Proof/Machine/Arithmetic.lean ====
section
/-! DEFINITION. ADD and MUL (41_arithmetic.md), and the optional ARB (46_arb_extension.md). -/

namespace Sys2Proof.Machine

/-- `ADD` (R100): the exact integer sum, range-checked (R102, R103). -/
def execAdd (m1 m2 m3 : Mode) (s : State) : Host.Outcome State Fault Refusal :=
  s.settle (effectRRW (fun a b => checkResult (a.toInt + b.toInt)) m1 m2 m3 s)

/-- `MUL` (R101): the exact integer product, range-checked (R102, R103). -/
def execMul (m1 m2 m3 : Mode) (s : State) : Host.Outcome State Fault Refusal :=
  s.settle (effectRRW (fun a b => checkResult (a.toInt * b.toInt)) m1 m2 m3 s)

/-- `ARB` (R146): adds its operand to the relative base, range-checked. Slots 2 and 3 are unused (R70).
It is decoded only when `HAS_ARB` (R145). PRESUMED: the rule is the spec's, from general knowledge (log 4). -/
def execArb (m1 _m2 _m3 : Mode) (s : State) : Host.Outcome State Fault Refusal :=
  s.settle (effectR (fun a t => (checkResult (t.rb.toInt + a.toInt)).map t.setRb) m1 s)

end Sys2Proof.Machine
end

