-- ==== Sys2Proof/Machine/Compare.lean ====
section
/-! DEFINITION. LT and EQ (44_compare.md). -/

namespace Sys2Proof.Machine

/-- `LT` (R130): 1 if operand 1 is less than operand 2, as signed integers, else 0. -/
def execLt (m1 m2 m3 : Mode) (s : State) : Host.Outcome State Fault Refusal :=
  s.settle (effectRRW (fun a b => .ok (truthValue (lessThan a b))) m1 m2 m3 s)

/-- `EQ` (R131): 1 if the operands are the same integer, else 0. -/
def execEq (m1 m2 m3 : Mode) (s : State) : Host.Outcome State Fault Refusal :=
  s.settle (effectRRW (fun a b => .ok (truthValue (equals a b))) m1 m2 m3 s)

end Sys2Proof.Machine
end

