-- ==== Sys2Proof/Machine/Halt.lean ====
section
/-! DEFINITION. HLT (45_halt.md). -/

namespace Sys2Proof.Machine

/-- `HLT` (R140): `st <- HALTED` and nothing else; `ip` stays at the word. No slot is used (R70), no address
is computed, so it cannot fault. -/
def execHlt (_m1 _m2 _m3 : Mode) (s : State) : Host.Outcome State Fault Refusal :=
  s.settle (.ok (s.setSt .halted))

end Sys2Proof.Machine
end

