-- ==== Sys2Proof/Machine/InOut.lean ====
section
/-! DEFINITION. IN and OUT (42_io.md). -/

namespace Sys2Proof.Machine

/-- `IN` (R110): pops the oldest input into the destination, or suspends (R111). Slots 2 and 3 are unused (R70). -/
def execInp (m1 _m2 _m3 : Mode) (s : State) : Host.Outcome State Fault Refusal :=
  s.settle (effectW m1 s)

/-- `OUT` (R112): appends its operand to the output queue. Slots 2 and 3 are unused (R70). -/
def execOut (m1 _m2 _m3 : Mode) (s : State) : Host.Outcome State Fault Refusal :=
  s.settle (effectR (fun a t => .ok (t.pushOut a)) m1 s)

end Sys2Proof.Machine
end

