-- ==== Sys2Proof/Machine/Jumps.lean ====
section
/-! DEFINITION. JT and JF (43_jumps.md). -/

namespace Sys2Proof.Machine

/-- `JT` (R120): jumps to operand 2 if operand 1 is not 0. Slot 3 is unused (R70). -/
def execJt (m1 m2 _m3 : Mode) (s : State) : Host.Outcome State Fault Refusal :=
  s.settle (effectRR isNonZero m1 m2 s)

/-- `JF` (R121): jumps to operand 2 if operand 1 is 0. Slot 3 is unused (R70). -/
def execJf (m1 m2 _m3 : Mode) (s : State) : Host.Outcome State Fault Refusal :=
  s.settle (effectRR isZero m1 m2 s)

end Sys2Proof.Machine
end

