-- ==== Sys2Proof/Machine/Dispatch.lean ====
section
/-! DEFINITION. Which meaning each instruction has: the `case` of `Step` (R150). -/

namespace Sys2Proof.Machine

/-- The action of a decoded instruction (R150). -/
def exec (i : Instr) (s : State) : Host.Outcome State Fault Refusal :=
  match i with
  | .add m1 m2 m3 => Sys2Proof.Machine.execAdd m1 m2 m3 s
  | .mul m1 m2 m3 => Sys2Proof.Machine.execMul m1 m2 m3 s
  | .inp m1 m2 m3 => Sys2Proof.Machine.execInp m1 m2 m3 s
  | .out m1 m2 m3 => Sys2Proof.Machine.execOut m1 m2 m3 s
  | .jt m1 m2 m3 => Sys2Proof.Machine.execJt m1 m2 m3 s
  | .jf m1 m2 m3 => Sys2Proof.Machine.execJf m1 m2 m3 s
  | .lt m1 m2 m3 => Sys2Proof.Machine.execLt m1 m2 m3 s
  | .eq m1 m2 m3 => Sys2Proof.Machine.execEq m1 m2 m3 s
  | .hlt m1 m2 m3 => Sys2Proof.Machine.execHlt m1 m2 m3 s
  | .arb m1 m2 m3 => Sys2Proof.Machine.execArb m1 m2 m3 s

end Sys2Proof.Machine
end

