-- ==== Sys2Proof/Machine/Sequencer.lean ====
section
/-! DEFINITION. The body of the step (47_sequencer_host.md), which Step.lean only calls. -/

namespace Sys2Proof.Machine

/-- Instruction fetch and decode: the cell at `ip`, decoded anew at each step (R31, R55, R150). -/
def fetch (s : State) : Except Raise Instr := decode s.params.hasArb s.word

/-- `Step()` on a running machine (R150): a word that spells no instruction takes its fault. -/
def runningStep (s : State) : Host.Outcome State Fault Refusal :=
  match fetch s with
  | .ok i => exec i s
  | .error r => .next (s.takeFault r)

/-- `Step()` with its precondition `st = RUNNING` (R150): outside it no step is executed, and the model
stops by name (R141, R159, R191; log 5, DESIGN CHOICE). -/
def sequencerStep (s : State) : Host.Outcome State Fault Refusal :=
  match s.st with
  | .running => runningStep s
  | .halted => .fault .stepWhileHalted
  | .blocked => .fault .stepWhileBlocked
  | .faulted => .fault .stepWhileFaulted

end Sys2Proof.Machine
end

