-- ==== Sys2Proof/Machine/Step.lean ====
section
/-! DEFINITION. The step of the machine, and an instruction placed where it fetches. -/

namespace Sys2Proof.Machine

/-- One step (R150). -/
def step (s : State) : Host.Outcome State Fault Refusal := sequencerStep s

/-- `s` with the instruction of these table bits placed at `ip`, to be the next one executed (log 6, log 7). -/
def State.withFetchWord (s : State) (nbits w : Nat) : State := s.placeTableWord nbits w

end Sys2Proof.Machine
end

