-- ==== Sys2Proof/Machine/HostPort.lean ====
section
/-! DEFINITION. The host's five transactions (R157) as functions of the state. They are atomic and never
overlap a `RUN` (R164), so none of them is a step of the core (log 8). -/

namespace Sys2Proof.Machine

/-- `LOAD(P)`: construction, the machine's reset. Every piece of state is discarded (R158, R210, R211); the
build parameter is no state and stays (R34; log 4). -/
def State.load (s : State) (program : List I64) : State :=
  { State.reset with mem := Memory.ofProgram 0 program, params := s.params }

/-- `while st = RUNNING: Step()`, cut off after `fuel` steps: none if the machine is still running then,
which is no outcome of the hardware (R152, R156; log 8). -/
def runLoop (fuel : Nat) (s : State) : Option State :=
  match fuel with
  | 0 => if s.st = .running then none else some s
  | fuel + 1 =>
    if s.st = .running then
      match step s with
      | .next t => runLoop fuel t
      | .fault _ => none
      | .refused _ => none
    else some s

/-- `Run()` (R152), under fuel. -/
def run (fuel : Nat) (s : State) : Option State := runLoop fuel s.enterRun

/-- `RUN()` issued in `s` returns, and leaves `t`; its result is `t.st` (R152, R160). -/
def RunReturns (s t : State) : Prop := ∃ fuel, run fuel s = some t

/-- The transactions with their arguments (R157). -/
inductive Transaction where
  | load (program : List I64)
  | pushInput (v : I64)
  | run
  | popOutput
  | readMem (start count : Nat)
deriving DecidableEq, Repr

/-- What a transaction answers (R157): nothing, the result of `RUN`, an output, "none available", or cells. -/
inductive Reply where
  | done
  | runResult (st : Status)
  | value (v : I64)
  | noneAvailable
  | cells (vs : List I64)
deriving DecidableEq, Repr

/-- The arguments the interface allows: a program whose last address exists (R158), a range of existing
addresses (R162: `a + c - 1 ≤ ADDR_MAX` in the integers). -/
def Transaction.allowed : Transaction → Bool
  | .load program => program.length ≤ addrMax + 1
  | .readMem start count => start + count ≤ addrMax + 1
  | .pushInput _ => true
  | .run => true
  | .popOutput => true

/-- `POP_OUTPUT()` (R161): the oldest output, or "none available". -/
def popOutput (s : State) : State × Reply :=
  match s.outq with
  | [] => (s, .noneAvailable)
  | v :: rest => (s.setOutq rest, .value v)

/-- A transaction's effect and answer (R157 to R162). None: arguments outside R157 (the host has no such
move; log 12), or a `RUN` that has not returned within the fuel (log 8). -/
def transact (fuel : Nat) (s : State) (t : Transaction) : Option (State × Reply) :=
  if t.allowed then
    match t with
    | .load program => some (s.load program, .done)
    | .pushInput v => some (s.pushInq v, .done)
    | .run => (run fuel s).map (fun u => (u, .runResult u.st))
    | .popOutput => some (popOutput s)
    | .readMem start count => some (s, .cells (s.mem.readRange start count))
  else none

end Sys2Proof.Machine
end

