-- ==== Sys2Proof/Safety.lean ====
section
/-! DEFINITION. What counts as a good state, and the words the statements use. -/

namespace Sys2Proof.Machine

/-- The fault record agrees with the status (R26, R27, R190, R191): outside `FAULTED` it is what reset left;
in `FAULTED` it holds a cause, the `ip` the machine still has, and the word there. -/
def State.recordOk (s : State) : Prop :=
  (s.st ≠ .faulted → s.fcause = none ∧ s.fip = 0 ∧ s.fword = I64.zero ∧ s.fslot = none) ∧
  (s.st = .faulted → s.fcause ≠ none ∧ s.fip = s.ip ∧ s.fword = s.word)

/-- The invariant of the machine: memory in its canonical form, `ip` an address (R22), the record sound, and
the relative base at its reset value on a machine without `ARB` (R24). -/
structure State.Inv (s : State) : Prop where
  mem : s.mem.wf
  ip : s.ip ≤ addrMax
  record : s.recordOk
  rb : s.params.hasArb = false → s.rb = I64.zero

/-- An integer is the address of a cell, `0 .. ADDR_MAX` (R40, R95). -/
abbrev InMem (z : Int) : Prop := 0 ≤ z ∧ z ≤ addrMax

/-- The cell after the instruction word that holds parameter `k` (R48, R60). -/
def paramValue (s : State) (k : Slot) : I64 := s.mem.read (s.ip + k.offset)

/-- The address a parameter names, in the integers: the parameter cell itself (Immediate), what it holds
(Position), what it holds plus `rb` (Relative) (R91 to R94). -/
def operandAddr (s : State) (k : Slot) : Mode → Int
  | .immediate => s.ip + k.offset
  | .position => (paramValue s k).toInt
  | .relative => s.rb.toInt + (paramValue s k).toInt

/-- The value of a read parameter (R91 to R93). -/
def operandValue (s : State) (k : Slot) (m : Mode) : I64 := s.mem.read (operandAddr s k m).toNat

/-- Parameter `k` can be resolved: its cell exists and the address it names exists (R95). -/
abbrev Resolvable (s : State) (k : Slot) (m : Mode) : Prop :=
  InMem (s.ip + k.offset) ∧ InMem (operandAddr s k m)

end Sys2Proof.Machine
end

