-- ==== Sys2Proof/Certificates/Slice0/Obligations.lean ====
section
/-! DEFINITION. The statements for the provers. -/

open Sys2Proof Sys2Proof.Machine

/-! Memory. -/

/-- R42: a write makes the one cell hold the value and changes no other cell. -/
def Obligations.WriteChangesOneCell : Prop :=
  ∀ (m : Memory) (a : Nat) (v : I64),
    (m.write a v).read a = v ∧ ∀ b, b ≠ a → (m.write a v).read b = m.read b

/-- R32, R43: which cells were ever written is not state; two canonical memories that read the same are the same. -/
def Obligations.CanonicalMemoryIsItsReads : Prop :=
  ∀ (m n : Memory), m.wf → n.wf → (∀ a, m.read a = n.read a) → m = n

/-! Encoding and decoding. -/

/-- Decoding the word of a legal instruction gives it back, every mode at every legal value; `ARB` where the
machine has it. -/
def Obligations.DecodeOfEncodeIsTheInstruction : Prop :=
  ∀ (arb : Bool) (i : Instr), WellFormed i → (i.opcode = 9 → arb = true) → decode arb (encode i) = .ok i

/-- A word that decodes is the word of what it decodes to, which is legal; opcode 9 only where the machine has it. -/
def Obligations.DecodedWordIsTheEncoding : Prop :=
  ∀ (arb : Bool) (w : I64) (i : Instr), decode arb w = .ok i → encode i = w ∧ WellFormed i ∧ (i.opcode = 9 → arb = true)

/-- R62: the layout of a word as arithmetic, both ways. Every five-digit word is made up of its opcode and its
three higher digits; and the decoded instruction of a word has that opcode and those modes. -/
def Obligations.WordIsItsDecimalFields : Prop :=
  (∀ n : Nat, n ≤ 99999 →
    digit 2 n = n / 100 % 10 ∧ digit 3 n = n / 1000 % 10 ∧ digit 4 n = n / 10000 % 10 ∧
    n = n % 100 + 100 * digit 2 n + 1000 * digit 3 n + 10000 * digit 4 n) ∧
  (∀ (arb : Bool) (w : I64) (i : Instr), decode arb w = .ok i →
    (i.opcode : Int) = w.toInt % 100 ∧
    ((i.mode .p1).digit : Int) = w.toInt / 100 % 10 ∧
    ((i.mode .p2).digit : Int) = w.toInt / 1000 % 10 ∧
    ((i.mode .p3).digit : Int) = w.toInt / 10000 % 10 ∧
    w.toInt = i.opcode + 100 * (i.mode .p1).digit + 1000 * (i.mode .p2).digit + 10000 * (i.mode .p3).digit)

/-- R64: on the machine of the source the decoded instructions are the nine of the table, each with its
length, and each of the nine is decoded from some word. -/
def Obligations.TheNineOpcodesAndTheirLengths : Prop :=
  (∀ (w : I64) (i : Instr), decode false w = .ok i →
    (∃ m1 m2 m3, i = .add m1 m2 m3 ∧ w.toInt % 100 = 1 ∧ i.len = 4) ∨
    (∃ m1 m2 m3, i = .mul m1 m2 m3 ∧ w.toInt % 100 = 2 ∧ i.len = 4) ∨
    (∃ m1 m2 m3, i = .inp m1 m2 m3 ∧ w.toInt % 100 = 3 ∧ i.len = 2) ∨
    (∃ m1 m2 m3, i = .out m1 m2 m3 ∧ w.toInt % 100 = 4 ∧ i.len = 2) ∨
    (∃ m1 m2 m3, i = .jt m1 m2 m3 ∧ w.toInt % 100 = 5 ∧ i.len = 3) ∨
    (∃ m1 m2 m3, i = .jf m1 m2 m3 ∧ w.toInt % 100 = 6 ∧ i.len = 3) ∨
    (∃ m1 m2 m3, i = .lt m1 m2 m3 ∧ w.toInt % 100 = 7 ∧ i.len = 4) ∨
    (∃ m1 m2 m3, i = .eq m1 m2 m3 ∧ w.toInt % 100 = 8 ∧ i.len = 4) ∨
    (∃ m1 m2 m3, i = .hlt m1 m2 m3 ∧ w.toInt % 100 = 99 ∧ i.len = 1)) ∧
  (∀ op : Int, op = 1 ∨ op = 2 ∨ op = 3 ∨ op = 4 ∨ op = 5 ∨ op = 6 ∨ op = 7 ∨ op = 8 ∨ op = 99 →
    ∃ w i, w.toInt = op ∧ decode false w = .ok i)

/-- R68: every five-digit word whose opcode is not in the table, opcode 9 among them, raises UNKNOWN_OPCODE,
whatever its other digits. So a running machine that reaches a cell that reads 0, as one never written does, faults:
R68 derives this from R41. The state the fault leaves and its record are R190 (decisions D8, D9; log 3), and opcode 9
is absent by decision D18. -/
def Obligations.UnknownOpcodeIsRejected : Prop :=
  (∀ w : I64, 0 ≤ w.toInt → w.toInt ≤ 99999 →
    (w.toInt % 100 = 0 ∨ 9 ≤ w.toInt % 100 ∧ w.toInt % 100 ≤ 98) →
    decode false w = .error ⟨.unknownOpcode, none⟩) ∧
  (∀ s : State, s.st = .running → s.mem.read s.ip = I64.zero →
    step s = .next { s with st := .faulted, fcause := some .unknownOpcode, fip := s.ip, fword := I64.zero, fslot := none })

/-- The whole decoder in decimal fields, in the order of its checks: range, opcode, modes 1 2 3, write target.
The range check and the order are decisions D4 and D6 of the spec ("The order of rule R72 is this spec's"). -/
def Obligations.DecoderChecksInOrder : Prop :=
  ∀ (arb : Bool) (w : I64) (op d1 d2 d3 : Int),
    op = w.toInt % 100 → d1 = w.toInt / 100 % 10 → d2 = w.toInt / 1000 % 10 → d3 = w.toInt / 10000 % 10 →
    let inRange := 0 ≤ w.toInt ∧ w.toInt ≤ 99999
    let known := (1 ≤ op ∧ op ≤ 8) ∨ op = 99 ∨ (op = 9 ∧ arb = true)
    let badTarget3 := (op = 1 ∨ op = 2 ∨ op = 7 ∨ op = 8) ∧ d3 = 1
    let badTarget1 := op = 3 ∧ d1 = 1
    (¬ inRange → decode arb w = .error ⟨.instructionWordOutOfRange, none⟩) ∧
    (inRange → ¬ known → decode arb w = .error ⟨.unknownOpcode, none⟩) ∧
    (inRange → known → 2 < d1 → decode arb w = .error ⟨.unknownParameterMode, some .p1⟩) ∧
    (inRange → known → d1 ≤ 2 → 2 < d2 → decode arb w = .error ⟨.unknownParameterMode, some .p2⟩) ∧
    (inRange → known → d1 ≤ 2 → d2 ≤ 2 → 2 < d3 → decode arb w = .error ⟨.unknownParameterMode, some .p3⟩) ∧
    (inRange → d1 ≤ 2 → d2 ≤ 2 → d3 ≤ 2 → badTarget3 → decode arb w = .error ⟨.immediateWriteTarget, some .p3⟩) ∧
    (inRange → d1 ≤ 2 → d2 ≤ 2 → d3 ≤ 2 → badTarget1 → decode arb w = .error ⟨.immediateWriteTarget, some .p1⟩) ∧
    (inRange → known → d1 ≤ 2 → d2 ≤ 2 → d3 ≤ 2 → ¬ badTarget3 → ¬ badTarget1 →
      ∃ i, decode arb w = .ok i ∧ (i.opcode : Int) = op ∧ ((i.mode .p1).digit : Int) = d1 ∧
        ((i.mode .p2).digit : Int) = d2 ∧ ((i.mode .p3).digit : Int) = d3)

/-- R76, R147: exactly 198 cell values decode, 225 with `HAS_ARB`. -/
def Obligations.LegalWordsAreCounted : Prop :=
  (∃ ws : List I64, ws.Nodup ∧ ws.length = 198 ∧ ∀ w, w ∈ ws ↔ ∃ i, decode false w = .ok i) ∧
  (∃ ws : List I64, ws.Nodup ∧ ws.length = 225 ∧ ∀ w, w ∈ ws ↔ ∃ i, decode true w = .ok i)

/-- Words of the spec's decoder vectors (95_test_vectors.md, 2.1), written out: one of each opcode. -/
def Obligations.HandWrittenWordsDecode : Prop :=
  decode false ⟨21101, by decide⟩ = .ok (.add .immediate .immediate .relative) ∧
  decode false ⟨1002, by decide⟩ = .ok (.mul .position .immediate .position) ∧
  decode false ⟨203, by decide⟩ = .ok (.inp .relative .position .position) ∧
  decode false ⟨10104, by decide⟩ = .ok (.out .immediate .position .immediate) ∧
  decode false ⟨1105, by decide⟩ = .ok (.jt .immediate .immediate .position) ∧
  decode false ⟨2106, by decide⟩ = .ok (.jf .immediate .relative .position) ∧
  decode false ⟨7, by decide⟩ = .ok (.lt .position .position .position) ∧
  decode false ⟨1108, by decide⟩ = .ok (.eq .immediate .immediate .position) ∧
  decode false ⟨22299, by decide⟩ = .ok (.hlt .relative .relative .relative) ∧
  decode false ⟨109, by decide⟩ = .error ⟨.unknownOpcode, none⟩ ∧
  decode true ⟨109, by decide⟩ = .ok (.arb .immediate .position .position)

/-- R70: a legal digit in a slot the opcode does not use has no effect. -/
def Obligations.UnusedModesHaveNoEffect : Prop :=
  ∀ (s : State) (m1 m2 m3 n1 n2 n3 : Mode),
    exec (.inp m1 m2 m3) s = exec (.inp m1 n2 n3) s ∧
    exec (.out m1 m2 m3) s = exec (.out m1 n2 n3) s ∧
    exec (.arb m1 m2 m3) s = exec (.arb m1 n2 n3) s ∧
    exec (.jt m1 m2 m3) s = exec (.jt m1 m2 n3) s ∧
    exec (.jf m1 m2 m3) s = exec (.jf m1 m2 n3) s ∧
    exec (.hlt m1 m2 m3) s = exec (.hlt n1 n2 n3) s

/-! Operand and destination resolution. -/

/-- R90 to R93: the value of a read parameter in each mode, with every address formed in the integers; where the
parameter's cell or the address it names is no address of the machine, the fault of that slot: R95, decision D2 of
the spec (log 3). -/
def Obligations.ReadParametersResolve : Prop :=
  ∀ (s : State) (k : Slot), ∀ p : I64, p = s.mem.read (s.ip + k.offset) →
    let cellOk := s.ip + k.offset ≤ addrMax
    let e := s.rb.toInt + p.toInt
    let bad : Except Raise I64 := .error ⟨.addressOutOfRange, some k⟩
    (¬ cellOk → ∀ m, resolveRead s k m = bad) ∧
    (cellOk → resolveRead s k .immediate = .ok p) ∧
    (cellOk → 0 ≤ p.toInt → resolveRead s k .position = .ok (s.mem.read p.toInt.toNat)) ∧
    (cellOk → p.toInt < 0 → resolveRead s k .position = bad) ∧
    (cellOk → 0 ≤ e → e ≤ addrMax → resolveRead s k .relative = .ok (s.mem.read e.toNat)) ∧
    (cellOk → e < 0 ∨ addrMax < e → resolveRead s k .relative = bad)

/-- R94: destination resolution is Position or Relative resolution that stops at the address; it is never asked
of an Immediate parameter, since the decoder has refused the word. The fault for an address out of range is R95,
decision D2 of the spec; that the decoder makes the Immediate check is R71, decision D7 (log 3). -/
def Obligations.WriteParametersResolve : Prop :=
  (∀ (s : State) (k : Slot) (m : Mode), m ≠ .immediate → ∀ p : I64, p = s.mem.read (s.ip + k.offset) →
    let e : Int := if m = .position then p.toInt else s.rb.toInt + p.toInt
    (∀ d : Nat, resolveWrite s k m = .ok d ↔ s.ip + k.offset ≤ addrMax ∧ e = d ∧ d ≤ addrMax) ∧
    (∀ r, resolveWrite s k m = .error r ↔
      r = ⟨.addressOutOfRange, some k⟩ ∧ (addrMax < s.ip + k.offset ∨ e < 0 ∨ addrMax < e)) ∧
    (∀ d : Nat, resolveWrite s k m = .ok d → resolveRead s k m = .ok (s.mem.read d))) ∧
  (∀ (arb : Bool) (w : I64) (i : Instr) (k : Slot), decode arb w = .ok i → i.writeSlot = some k → i.mode k ≠ .immediate)

/-- R97 (a): with a relative base of 0, Relative mode is Position mode. -/
def Obligations.RelativeAtBaseZeroIsPosition : Prop :=
  ∀ (s : State) (k : Slot), s.rb = I64.zero →
    resolveRead s k .relative = resolveRead s k .position ∧ resolveWrite s k .relative = resolveWrite s k .position

/-! What each instruction does: its next state, and so its frame. -/

/-- R100, R102: the exact sum goes to the destination; `ip` advances by 4; no other cell and nothing else changes. -/
def Obligations.AddStoresTheExactSum : Prop :=
  ∀ (s : State) (m1 m2 m3 : Mode) (a b : I64) (d : Nat),
    resolveRead s .p1 m1 = .ok a → resolveRead s .p2 m2 = .ok b → resolveWrite s .p3 m3 = .ok d →
    s.ip + 4 ≤ addrMax → InI64 (a.toInt + b.toInt) →
    ∃ t, exec (.add m1 m2 m3) s = .next t ∧ (t.mem.read d).toInt = a.toInt + b.toInt ∧
      (∀ x, x ≠ d → t.mem.read x = s.mem.read x) ∧ t = { s with mem := t.mem, ip := s.ip + 4 }

/-- R101, R102: the exact product goes to the destination; `ip` advances by 4; no other cell and nothing else changes. -/
def Obligations.MulStoresTheExactProduct : Prop :=
  ∀ (s : State) (m1 m2 m3 : Mode) (a b : I64) (d : Nat),
    resolveRead s .p1 m1 = .ok a → resolveRead s .p2 m2 = .ok b → resolveWrite s .p3 m3 = .ok d →
    s.ip + 4 ≤ addrMax → InI64 (a.toInt * b.toInt) →
    ∃ t, exec (.mul m1 m2 m3) s = .next t ∧ (t.mem.read d).toInt = a.toInt * b.toInt ∧
      (∀ x, x ≠ d → t.mem.read x = s.mem.read x) ∧ t = { s with mem := t.mem, ip := s.ip + 4 }

/-- R130, R132: 1 or 0 as operand 1 is less than operand 2, signed; no overflow is possible. -/
def Obligations.LessThanStoresOneOrZero : Prop :=
  ∀ (s : State) (m1 m2 m3 : Mode) (a b : I64) (d : Nat),
    resolveRead s .p1 m1 = .ok a → resolveRead s .p2 m2 = .ok b → resolveWrite s .p3 m3 = .ok d →
    s.ip + 4 ≤ addrMax →
    ∃ t, exec (.lt m1 m2 m3) s = .next t ∧
      (a.toInt < b.toInt → (t.mem.read d).toInt = 1) ∧ (b.toInt ≤ a.toInt → (t.mem.read d).toInt = 0) ∧
      (∀ x, x ≠ d → t.mem.read x = s.mem.read x) ∧ t = { s with mem := t.mem, ip := s.ip + 4 }

/-- R131, R132: 1 or 0 as the operands are the same integer. -/
def Obligations.EqualsStoresOneOrZero : Prop :=
  ∀ (s : State) (m1 m2 m3 : Mode) (a b : I64) (d : Nat),
    resolveRead s .p1 m1 = .ok a → resolveRead s .p2 m2 = .ok b → resolveWrite s .p3 m3 = .ok d →
    s.ip + 4 ≤ addrMax →
    ∃ t, exec (.eq m1 m2 m3) s = .next t ∧
      (a.toInt = b.toInt → (t.mem.read d).toInt = 1) ∧ (a.toInt ≠ b.toInt → (t.mem.read d).toInt = 0) ∧
      (∀ x, x ≠ d → t.mem.read x = s.mem.read x) ∧ t = { s with mem := t.mem, ip := s.ip + 4 }

/-- R110: `IN` pops the oldest input, exactly one, into the destination; `ip` advances by 2. -/
def Obligations.InputStoresTheOldestValue : Prop :=
  ∀ (s : State) (m1 m2 m3 : Mode) (d : Nat) (v : I64) (rest : List I64),
    resolveWrite s .p1 m1 = .ok d → s.ip + 2 ≤ addrMax → s.inq = v :: rest →
    ∃ t, exec (.inp m1 m2 m3) s = .next t ∧ t.mem.read d = v ∧
      (∀ x, x ≠ d → t.mem.read x = s.mem.read x) ∧ t = { s with mem := t.mem, inq := rest, ip := s.ip + 2 }

/-- R111: with no input, `IN` changes nothing but `st`. -/
def Obligations.InputSuspendsOnAnEmptyQueue : Prop :=
  ∀ (s : State) (m1 m2 m3 : Mode) (d : Nat),
    resolveWrite s .p1 m1 = .ok d → s.ip + 2 ≤ addrMax → s.inq = [] →
    exec (.inp m1 m2 m3) s = .next { s with st := .blocked }

/-- R112: `OUT` appends its operand to the output queue; `ip` advances by 2. -/
def Obligations.OutputAppendsItsOperand : Prop :=
  ∀ (s : State) (m1 m2 m3 : Mode) (a : I64),
    resolveRead s .p1 m1 = .ok a → s.ip + 2 ≤ addrMax →
    exec (.out m1 m2 m3) s = .next { s with outq := s.outq ++ [a], ip := s.ip + 2 }

/-- R120, R122: `JT` sets `ip` to its operand 2, an absolute address, if operand 1 is not 0, negative included;
else it goes on at the next instruction, whatever operand 2 is. -/
def Obligations.JumpIfTrueSetsIp : Prop :=
  ∀ (s : State) (m1 m2 m3 : Mode) (c g : I64),
    resolveRead s .p1 m1 = .ok c → resolveRead s .p2 m2 = .ok g →
    (c.toInt ≠ 0 → 0 ≤ g.toInt → exec (.jt m1 m2 m3) s = .next { s with ip := g.toInt.toNat }) ∧
    (c.toInt = 0 → s.ip + 3 ≤ addrMax → exec (.jt m1 m2 m3) s = .next { s with ip := s.ip + 3 })

/-- R121, R122: `JF` sets `ip` to its operand 2 if operand 1 is exactly 0; else it goes on at the next instruction. -/
def Obligations.JumpIfFalseSetsIp : Prop :=
  ∀ (s : State) (m1 m2 m3 : Mode) (c g : I64),
    resolveRead s .p1 m1 = .ok c → resolveRead s .p2 m2 = .ok g →
    (c.toInt = 0 → 0 ≤ g.toInt → exec (.jf m1 m2 m3) s = .next { s with ip := g.toInt.toNat }) ∧
    (c.toInt ≠ 0 → s.ip + 3 ≤ addrMax → exec (.jf m1 m2 m3) s = .next { s with ip := s.ip + 3 })

/-- R140: `HLT` changes `st` and nothing else, wherever it stands; that `ip` stays is decision D12. -/
def Obligations.HaltChangesOnlyTheStatus : Prop :=
  ∀ (s : State) (m1 m2 m3 : Mode), exec (.hlt m1 m2 m3) s = .next { s with st := .halted }

/-- R146 (from general knowledge, says the spec; log 4): `ARB` adds its operand to the relative base. A step runs
it only with `HAS_ARB = true` (R145). -/
def Obligations.AdjustAddsToTheRelativeBase : Prop :=
  ∀ (s : State) (m1 m2 m3 : Mode) (a : I64),
    resolveRead s .p1 m1 = .ok a → s.ip + 2 ≤ addrMax → InI64 (s.rb.toInt + a.toInt) →
    ∃ t, exec (.arb m1 m2 m3) s = .next t ∧ t.rb.toInt = s.rb.toInt + a.toInt ∧
      t = { s with rb := t.rb, ip := s.ip + 2 }

/-! Where instructions fault (decisions D2, D3, D6, D15, D26 of the spec). -/

/-- R95, R96, R186, R189: the address faults of `ADD`, `MUL`, `LT`, `EQ`, slot 1, 2, 3, then the advance; each
before the arithmetic. -/
def Obligations.ThreeOperandFormsFaultInSlotOrder : Prop :=
  ∀ (s : State) (m1 m2 m3 : Mode) (i : Instr),
    (i = .add m1 m2 m3 ∨ i = .mul m1 m2 m3 ∨ i = .lt m1 m2 m3 ∨ i = .eq m1 m2 m3) → m3 ≠ .immediate →
    (¬ Resolvable s .p1 m1 → exec i s = .next (s.takeFault ⟨.addressOutOfRange, some .p1⟩)) ∧
    (Resolvable s .p1 m1 → ¬ Resolvable s .p2 m2 → exec i s = .next (s.takeFault ⟨.addressOutOfRange, some .p2⟩)) ∧
    (Resolvable s .p1 m1 → Resolvable s .p2 m2 → ¬ Resolvable s .p3 m3 →
      exec i s = .next (s.takeFault ⟨.addressOutOfRange, some .p3⟩)) ∧
    (Resolvable s .p1 m1 → Resolvable s .p2 m2 → Resolvable s .p3 m3 → addrMax < s.ip + 4 →
      exec i s = .next (s.takeFault ⟨.addressOutOfRange, none⟩))

/-- R103, R187, and R146 for `ARB`: a result outside the signed 64-bit range faults, after every address fault; nothing
is written, nothing wraps. -/
def Obligations.OverflowFaultsAndWritesNothing : Prop :=
  ∀ (s : State) (m1 m2 m3 : Mode) (a b : I64) (d : Nat), resolveRead s .p1 m1 = .ok a →
    (resolveRead s .p2 m2 = .ok b → resolveWrite s .p3 m3 = .ok d → s.ip + 4 ≤ addrMax →
      ¬ InI64 (a.toInt + b.toInt) → exec (.add m1 m2 m3) s = .next (s.takeFault ⟨.arithmeticOverflow, none⟩)) ∧
    (resolveRead s .p2 m2 = .ok b → resolveWrite s .p3 m3 = .ok d → s.ip + 4 ≤ addrMax →
      ¬ InI64 (a.toInt * b.toInt) → exec (.mul m1 m2 m3) s = .next (s.takeFault ⟨.arithmeticOverflow, none⟩)) ∧
    (s.ip + 2 ≤ addrMax → ¬ InI64 (s.rb.toInt + a.toInt) →
      exec (.arb m1 m2 m3) s = .next (s.takeFault ⟨.arithmeticOverflow, none⟩))

/-- R110, R112, R146, R186, R189: the address faults of `IN`, `OUT` and `ARB`, slot 1, then the advance; those of `IN`
come before the queue test, whatever the queue holds. -/
def Obligations.OneOperandFormsFaultBeforeTheirEffect : Prop :=
  ∀ (s : State) (m1 m2 m3 : Mode) (i : Instr),
    ((i = .inp m1 m2 m3 ∧ m1 ≠ .immediate) ∨ i = .out m1 m2 m3 ∨ i = .arb m1 m2 m3) →
    (¬ Resolvable s .p1 m1 → exec i s = .next (s.takeFault ⟨.addressOutOfRange, some .p1⟩)) ∧
    (Resolvable s .p1 m1 → addrMax < s.ip + 2 → exec i s = .next (s.takeFault ⟨.addressOutOfRange, none⟩))

/-- R120 to R122, R186: the address faults of the jumps. Operand 2 is resolved whether or not the jump is taken; a
negative target faults only when it is. -/
def Obligations.JumpsFault : Prop :=
  ∀ (s : State) (m1 m2 m3 : Mode) (i : Instr) (taken : Prop),
    ((i = .jt m1 m2 m3 ∧ (taken ↔ (operandValue s .p1 m1).toInt ≠ 0)) ∨
     (i = .jf m1 m2 m3 ∧ (taken ↔ (operandValue s .p1 m1).toInt = 0))) →
    (¬ Resolvable s .p1 m1 → exec i s = .next (s.takeFault ⟨.addressOutOfRange, some .p1⟩)) ∧
    (Resolvable s .p1 m1 → ¬ Resolvable s .p2 m2 → exec i s = .next (s.takeFault ⟨.addressOutOfRange, some .p2⟩)) ∧
    (Resolvable s .p1 m1 → Resolvable s .p2 m2 → taken → (operandValue s .p2 m2).toInt < 0 →
      exec i s = .next (s.takeFault ⟨.addressOutOfRange, some .p2⟩)) ∧
    (Resolvable s .p1 m1 → Resolvable s .p2 m2 → ¬ taken → addrMax < s.ip + 3 →
      exec i s = .next (s.takeFault ⟨.addressOutOfRange, none⟩))

/-! The step. -/

/-- R150: when the word at `ip` decodes, the step is the decoded instruction, and the step adds nothing around it. -/
def Obligations.StepRunsTheDecodedInstruction : Prop :=
  ∀ (s : State) (i : Instr), s.st = .running → decode s.params.hasArb (s.mem.read s.ip) = .ok i → step s = exec i s

/-- R150, R190: when the word at `ip` does not decode, the step is fault entry with the decoder's cause and slot. -/
def Obligations.StepTakesTheDecodersFault : Prop :=
  ∀ (s : State) (r : Raise), s.st = .running → decode s.params.hasArb (s.mem.read s.ip) = .error r →
    step s = .next { s with st := .faulted, fcause := some r.cause, fip := s.ip, fword := s.mem.read s.ip, fslot := r.slot }

/-- The model's choice (log 5), from Step's "Precondition: `st = RUNNING`" (R150): outside it the step stops by name. -/
def Obligations.StepStopsOutsideRunning : Prop :=
  ∀ s : State, (s.st = .halted → step s = .fault .stepWhileHalted) ∧
    (s.st = .blocked → step s = .fault .stepWhileBlocked) ∧ (s.st = .faulted → step s = .fault .stepWhileFaulted)

/-- R151: a step of a running machine answers a next state, and it is one of four outcomes, each with exactly the
state change of the table. -/
def Obligations.StepHasFourOutcomes : Prop :=
  ∀ s : State, s.st = .running → ∃ t, step s = .next t ∧
    ((t.st = .running ∧ ∃ i, decode s.params.hasArb (s.mem.read s.ip) = .ok i ∧ exec i s = .next t ∧ i.opcode ≠ 99) ∨
     (t = { s with st := .halted } ∧ (s.mem.read s.ip).toInt % 100 = 99) ∨
     (t = { s with st := .blocked } ∧ (s.mem.read s.ip).toInt % 100 = 3 ∧ s.inq = []) ∨
     (t.st = .faulted ∧ t = { s with st := .faulted, fcause := t.fcause, fip := t.fip, fword := t.fword, fslot := t.fslot }))

/-- R190, R181: a fault is precise. Only `st` and the record change; the record holds a cause with a slot of its row,
`ip` and the word there. -/
def Obligations.FaultsArePrecise : Prop :=
  ∀ s t : State, step s = .next t → t.st = .faulted →
    ∃ c k, t = { s with st := .faulted, fcause := some c, fip := s.ip, fword := s.mem.read s.ip, fslot := k } ∧
      ((c = .unknownOpcode ∧ k = none) ∨ (c = .unknownParameterMode ∧ k ≠ none) ∨
       (c = .immediateWriteTarget ∧ (k = some .p3 ∨ k = some .p1)) ∨ (c = .instructionWordOutOfRange ∧ k = none) ∨
       c = .addressOutOfRange ∨ (c = .arithmeticOverflow ∧ k = none))

/-- R20, R46: which words write which space. Memory changes only at words of opcode 1, 2, 3, 7, 8; `inq` only by `IN`,
which removes its oldest value; `outq` only by `OUT`, which appends one; `rb` only by `ARB`; the parameters never. -/
def Obligations.OnlyTheNamedOpcodesWriteEachSpace : Prop :=
  ∀ (s t : State) (op : Int), step s = .next t → op = (s.mem.read s.ip).toInt % 100 →
    (t.mem = s.mem ∨ op = 1 ∨ op = 2 ∨ op = 3 ∨ op = 7 ∨ op = 8) ∧
    (t.inq = s.inq ∨ op = 3 ∧ ∃ v, s.inq = v :: t.inq) ∧
    (t.outq = s.outq ∨ op = 4 ∧ ∃ v, t.outq = s.outq ++ [v]) ∧
    (t.rb = s.rb ∨ op = 9 ∧ s.params.hasArb = true) ∧
    t.params = s.params

/-- R24: with `HAS_ARB = false` no step changes the relative base. -/
def Obligations.RelativeBaseIsFixedWithoutArb : Prop :=
  ∀ s t : State, s.params.hasArb = false → step s = .next t → t.rb = s.rb ∧ t.params = s.params

/-- R156: a step that goes on and does not jump increases `ip`, by 1 to 4 cells; the length is that of the word. -/
def Obligations.StraightLineStepsAdvance : Prop :=
  ∀ s t : State, step s = .next t → t.st = .running →
    (s.mem.read s.ip).toInt % 100 ≠ 5 → (s.mem.read s.ip).toInt % 100 ≠ 6 →
    s.ip < t.ip ∧ ∃ i, decode s.params.hasArb (s.mem.read s.ip) = .ok i ∧ t.ip = s.ip + i.len

/-- R115: the program cannot read `outq`. What is in it before a step changes nothing but what is in it afterwards. -/
def Obligations.StepIsBlindToEarlierOutputs : Prop :=
  ∀ (s t : State) (q : List I64), step s = .next t →
    step { s with outq := q ++ s.outq } = .next { t with outq := q ++ t.outq }

/-! The invariant. -/

/-- Every step keeps the invariant: canonical memory, `ip` an address (R22), the fault record in agreement with the
status (R26, R27, R190), the relative base at 0 on a machine without `ARB` (R24). -/
def Obligations.EveryStepKeepsTheInvariant : Prop := ∀ s t : State, s.Inv → step s = .next t → t.Inv

/-- Reset meets the invariant. -/
def Obligations.ResetMeetsTheInvariant : Prop := State.reset.Inv

/-- Every transaction of the host keeps the invariant: `LOAD` establishes it, a `RUN` that returns keeps it. -/
def Obligations.EveryTransactionKeepsTheInvariant : Prop :=
  ∀ (fuel : Nat) (s t : State) (x : Transaction) (r : Reply), s.Inv → transact fuel s x = some (t, r) → t.Inv

/-! The host's transactions. -/

/-- R35, R211: the state after `LOAD(P)`, every piece of it, whatever the state before; `st` and the fault record are
decisions D10 and D9 of the spec, and `LOAD` in every state is D21. Two clauses are the model's choice: `params` is
kept (log 4), and `State.reset` is `LOAD` of the empty program (log 6). -/
def Obligations.LoadSetsEveryPieceOfState : Prop :=
  (∀ (s : State) (p : List I64) (fuel : Nat), p.length ≤ addrMax + 1 →
    ∃ t, transact fuel s (.load p) = some (t, .done) ∧
      (∀ a v, p[a]? = some v → t.mem.read a = v) ∧ (∀ a, p.length ≤ a → t.mem.read a = I64.zero) ∧
      t.ip = 0 ∧ t.rb = I64.zero ∧ t.inq = [] ∧ t.outq = [] ∧ t.st = .running ∧
      t.fcause = none ∧ t.fip = 0 ∧ t.fword = I64.zero ∧ t.fslot = none ∧ t.params = s.params) ∧
  State.reset.load [] = State.reset

/-- R159: `PUSH_INPUT` appends to `inq`, in every status, and changes nothing else. -/
def Obligations.PushInputAppends : Prop :=
  ∀ (s : State) (v : I64) (fuel : Nat),
    transact fuel s (.pushInput v) = some ({ s with inq := s.inq ++ [v] }, .done)

/-- R161: `POP_OUTPUT` removes and returns the oldest output, or says that there is none, in every status. -/
def Obligations.PopOutputTakesTheOldest : Prop :=
  ∀ (s : State) (fuel : Nat),
    (s.outq = [] → transact fuel s .popOutput = some (s, .noneAvailable)) ∧
    (∀ v rest, s.outq = v :: rest → transact fuel s .popOutput = some ({ s with outq := rest }, .value v))

/-- R162: `READ_MEM(a, c)` returns the `c` cells from `a` on, in ascending order, and changes nothing. -/
def Obligations.ReadMemReturnsTheRange : Prop :=
  ∀ (s : State) (a c fuel : Nat), a + c ≤ addrMax + 1 →
    ∃ vs : List I64, transact fuel s (.readMem a c) = some (s, .cells vs) ∧ vs.length = c ∧
      ∀ j, j < c → vs[j]? = some (s.mem.read (a + j))

/-- R152 to R155: `RUN` is the loop. From RUNNING: one step, then the rest of the loop if the machine still runs. From
BLOCKED: as from RUNNING. From HALTED: no step, the fault RUN_AFTER_HALT. From FAULTED: nothing. -/
def Obligations.RunIsTheLoop : Prop :=
  ∀ s t : State,
    (s.st = .running → (RunReturns s t ↔ ∃ u, step s = .next u ∧ (u.st = .running → RunReturns u t) ∧ (u.st ≠ .running → t = u))) ∧
    (s.st = .blocked → (RunReturns s t ↔ RunReturns { s with st := .running } t)) ∧
    (s.st = .halted → (RunReturns s t ↔
      t = { s with st := .faulted, fcause := some .runAfterHalt, fip := s.ip, fword := s.mem.read s.ip, fslot := none })) ∧
    (s.st = .faulted → (RunReturns s t ↔ t = s))

/-- R152, R165: `RUN` returns only a terminal status. -/
def Obligations.RunReturnsATerminalStatus : Prop :=
  ∀ s t : State, RunReturns s t → t.st = .halted ∨ t.st = .blocked ∨ t.st = .faulted

/-- R222: from one state there is one execution: a `RUN` that returns leaves one state, whatever the fuel. -/
def Obligations.RunIsDeterministic : Prop := ∀ s t u : State, RunReturns s t → RunReturns s u → t = u

/-- R153: `RUN` on a blocked instance with no new input blocks again, with the state unchanged. -/
def Obligations.BlockedRunWithoutInputChangesNothing : Prop :=
  ∀ s t : State, RunReturns s t → t.st = .blocked → RunReturns t t

/-- R117: a `RUN` returns BLOCKED only from a step whose word has opcode 3; that word is at `ip` when it returns, and
the input queue is empty. -/
def Obligations.RunBlocksOnlyAtAnInput : Prop :=
  ∀ s t : State, RunReturns s t → t.st = .blocked → (t.mem.read t.ip).toInt % 100 = 3 ∧ t.inq = []

/-- R116: the resumability law. `RUN` that blocks, then `PUSH_INPUT(v)`, then `RUN`, ends in the same state as
`PUSH_INPUT(v)` first and then `RUN`, and returns exactly when that does. The form over whole states is the one R116
derives from R110, R111 and R153. -/
def Obligations.BlockingAndResumingIsHavingHadTheInput : Prop :=
  ∀ (s t u : State) (v : I64), RunReturns s t → t.st = .blocked →
    (RunReturns (t.pushInq v) u ↔ RunReturns (s.pushInq v) u)

/-- R113, R165: over a whole `RUN` outputs are only appended and inputs only taken from the front. -/
def Obligations.RunKeepsTheQueuesInOrder : Prop :=
  ∀ s t : State, RunReturns s t → (∃ new, t.outq = s.outq ++ new) ∧ (∃ taken, s.inq = taken ++ t.inq)

/-- R155, R191: a faulted instance is left only by `LOAD`: every other transaction keeps status, record, memory, `ip`
and `rb`. -/
def Obligations.OnlyLoadLeavesAFault : Prop :=
  ∀ (fuel : Nat) (s t : State) (x : Transaction) (r : Reply), s.st = .faulted → transact fuel s x = some (t, r) →
    (∃ p, x = .load p) ∨ t = { s with inq := t.inq, outq := t.outq }
end

