-- ==== Sys2Proof/Laws/PerInstr.lean ====
section
/-! SUPPORT. Statements about every instruction as syntax, one lemma per constructor. -/

/-- The shape of an instruction (R64 to R66, R76): its length is 1 to 4 cells, its write slot is its last parameter, its word
has five digits, and its opcode is the two low-order ones. -/
def Sys2Proof.Laws.Shape.Statement (i : Sys2Proof.Instr) : Prop :=
  1 ≤ i.len ∧ i.len ≤ 4 ∧ (∀ k, i.writeSlot = some k → k.offset + 1 = i.len) ∧
  Sys2Proof.encodeNat i ≤ 99999 ∧ Sys2Proof.encodeNat i % 100 = i.opcode

namespace Sys2Proof.Laws

/-- A mode's digit is 0, 1 or 2. -/
theorem modeDigit_le (m : Mode) : m.digit ≤ 2 := by cases m <;> decide

/-- The word of an instruction, from its opcode and the bound on its modes' digits. -/
theorem encodeNat_bounds (i : Instr) (h : i.opcode < 100) : encodeNat i ≤ 99999 ∧ encodeNat i % 100 = i.opcode := by
  have h1 := modeDigit_le (i.mode .p1)
  have h2 := modeDigit_le (i.mode .p2)
  have h3 := modeDigit_le (i.mode .p3)
  unfold encodeNat
  omega

theorem Shape.add (m1 m2 m3 : Mode) : Shape.Statement (.add m1 m2 m3) :=
  ⟨by simp [Instr.len], by simp [Instr.len], fun k h => by cases h; rfl, encodeNat_bounds _ (by simp [Instr.opcode])⟩

theorem Shape.mul (m1 m2 m3 : Mode) : Shape.Statement (.mul m1 m2 m3) :=
  ⟨by simp [Instr.len], by simp [Instr.len], fun k h => by cases h; rfl, encodeNat_bounds _ (by simp [Instr.opcode])⟩

theorem Shape.inp (m1 m2 m3 : Mode) : Shape.Statement (.inp m1 m2 m3) :=
  ⟨by simp [Instr.len], by simp [Instr.len], fun k h => by cases h; rfl, encodeNat_bounds _ (by simp [Instr.opcode])⟩

theorem Shape.out (m1 m2 m3 : Mode) : Shape.Statement (.out m1 m2 m3) :=
  ⟨by simp [Instr.len], by simp [Instr.len], fun k h => by simp [Instr.writeSlot] at h, encodeNat_bounds _ (by simp [Instr.opcode])⟩

theorem Shape.jt (m1 m2 m3 : Mode) : Shape.Statement (.jt m1 m2 m3) :=
  ⟨by simp [Instr.len], by simp [Instr.len], fun k h => by simp [Instr.writeSlot] at h, encodeNat_bounds _ (by simp [Instr.opcode])⟩

theorem Shape.jf (m1 m2 m3 : Mode) : Shape.Statement (.jf m1 m2 m3) :=
  ⟨by simp [Instr.len], by simp [Instr.len], fun k h => by simp [Instr.writeSlot] at h, encodeNat_bounds _ (by simp [Instr.opcode])⟩

theorem Shape.lt (m1 m2 m3 : Mode) : Shape.Statement (.lt m1 m2 m3) :=
  ⟨by simp [Instr.len], by simp [Instr.len], fun k h => by cases h; rfl, encodeNat_bounds _ (by simp [Instr.opcode])⟩

theorem Shape.eq (m1 m2 m3 : Mode) : Shape.Statement (.eq m1 m2 m3) :=
  ⟨by simp [Instr.len], by simp [Instr.len], fun k h => by cases h; rfl, encodeNat_bounds _ (by simp [Instr.opcode])⟩

theorem Shape.hlt (m1 m2 m3 : Mode) : Shape.Statement (.hlt m1 m2 m3) :=
  ⟨by simp [Instr.len], by simp [Instr.len], fun k h => by simp [Instr.writeSlot] at h, encodeNat_bounds _ (by simp [Instr.opcode])⟩

theorem Shape.arb (m1 m2 m3 : Mode) : Shape.Statement (.arb m1 m2 m3) :=
  ⟨by simp [Instr.len], by simp [Instr.len], fun k h => by simp [Instr.writeSlot] at h, encodeNat_bounds _ (by simp [Instr.opcode])⟩

end Sys2Proof.Laws
end

