-- ==== Sys2Proof/Laws/Decode.lean ====
section
/-! SUPPORT. The tables of the decoder and the encoder, each unfolded once. -/

namespace Sys2Proof.Laws

theorem modeOfDigit_eq_some {n : Nat} {m : Mode} : modeOfDigit n = some m ↔ n = m.digit := by
  constructor
  · intro h
    unfold modeOfDigit at h
    split at h <;> cases h <;> rfl
  · rintro rfl
    cases m <;> rfl

theorem modeOfDigit_eq_none {n : Nat} : modeOfDigit n = none ↔ 2 < n := by
  unfold modeOfDigit
  split <;> simp_all
  omega

/-- Which opcodes have a row (R64, R147). -/
theorem opcodeRow_eq_none {arb : Bool} {n : Nat} :
    opcodeRow arb n = none ↔ ¬ ((1 ≤ n ∧ n ≤ 8) ∨ n = 99 ∨ (n = 9 ∧ arb = true)) := by
  unfold opcodeRow
  split <;> simp_all
  omega

/-- What a row makes: the instruction of that opcode, with the three modes as given. -/
theorem opcodeRow_eq_some {arb : Bool} {n : Nat} {row : Mode → Mode → Mode → Instr} (h : opcodeRow arb n = some row)
    (m1 m2 m3 : Mode) : (row m1 m2 m3).opcode = n ∧ (row m1 m2 m3).mode .p1 = m1 ∧ (row m1 m2 m3).mode .p2 = m2 ∧
      (row m1 m2 m3).mode .p3 = m3 ∧ (n = 9 → arb = true) := by
  unfold opcodeRow at h
  split at h <;> try (cases h <;> simp [Instr.opcode, Instr.mode])
  split at h <;> cases h
  simp [Instr.opcode, Instr.mode, *]

/-- A five-digit word is decoded by its row and its three digits, in the order of R73. -/
theorem decodeDigits_eq (arb : Bool) (n : Nat) :
    decodeDigits arb n = match opcodeRow arb (n % 100) with
      | none => .error ⟨.unknownOpcode, none⟩
      | some row => match modeOfDigit (n / 100 % 10), modeOfDigit (n / 1000 % 10), modeOfDigit (n / 10000 % 10) with
        | none, _, _ => .error ⟨.unknownParameterMode, some .p1⟩
        | some _, none, _ => .error ⟨.unknownParameterMode, some .p2⟩
        | some _, some _, none => .error ⟨.unknownParameterMode, some .p3⟩
        | some m1, some m2, some m3 => checkWriteTarget (row m1 m2 m3) := by
  unfold decodeDigits
  cases opcodeRow arb (n % 100) with
  | none => rfl
  | some row =>
    simp only [decodeMode, digit, show 10 ^ 2 = 100 from rfl, show 10 ^ 3 = 1000 from rfl, show 10 ^ 4 = 10000 from rfl]
    cases modeOfDigit (n / 100 % 10) <;> cases modeOfDigit (n / 1000 % 10) <;> cases modeOfDigit (n / 10000 % 10) <;> rfl

/-- The integer an instruction is encoded as. -/
theorem encode_toInt (i : Instr) : (encode i).toInt = encodeNat i := by
  have h := (encodeNat_bounds i (by cases i <;> simp [Instr.opcode])).1
  unfold encode I64.ofNatSmall
  rw [dif_pos (by omega)]

end Sys2Proof.Laws
end

