-- ==== Sys2Proof/Laws/State.lean ====
section
/-! SUPPORT. One lemma per field per update of the state, true by rfl, so that no proof unfolds an update. -/

namespace Sys2Proof.Machine

variable (s : State)

/-! `writeCell` -/

@[simp] theorem State.writeCell_mem (a : Nat) (v : I64) : (s.writeCell a v).mem = s.mem.write a v := rfl
@[simp] theorem State.writeCell_ip (a : Nat) (v : I64) : (s.writeCell a v).ip = s.ip := rfl
@[simp] theorem State.writeCell_rb (a : Nat) (v : I64) : (s.writeCell a v).rb = s.rb := rfl
@[simp] theorem State.writeCell_inq (a : Nat) (v : I64) : (s.writeCell a v).inq = s.inq := rfl
@[simp] theorem State.writeCell_outq (a : Nat) (v : I64) : (s.writeCell a v).outq = s.outq := rfl
@[simp] theorem State.writeCell_st (a : Nat) (v : I64) : (s.writeCell a v).st = s.st := rfl
@[simp] theorem State.writeCell_fcause (a : Nat) (v : I64) : (s.writeCell a v).fcause = s.fcause := rfl
@[simp] theorem State.writeCell_fip (a : Nat) (v : I64) : (s.writeCell a v).fip = s.fip := rfl
@[simp] theorem State.writeCell_fword (a : Nat) (v : I64) : (s.writeCell a v).fword = s.fword := rfl
@[simp] theorem State.writeCell_fslot (a : Nat) (v : I64) : (s.writeCell a v).fslot = s.fslot := rfl
@[simp] theorem State.writeCell_params (a : Nat) (v : I64) : (s.writeCell a v).params = s.params := rfl

/-! `setIp` -/

@[simp] theorem State.setIp_mem (a : Nat) : (s.setIp a).mem = s.mem := rfl
@[simp] theorem State.setIp_ip (a : Nat) : (s.setIp a).ip = a := rfl
@[simp] theorem State.setIp_rb (a : Nat) : (s.setIp a).rb = s.rb := rfl
@[simp] theorem State.setIp_inq (a : Nat) : (s.setIp a).inq = s.inq := rfl
@[simp] theorem State.setIp_outq (a : Nat) : (s.setIp a).outq = s.outq := rfl
@[simp] theorem State.setIp_st (a : Nat) : (s.setIp a).st = s.st := rfl
@[simp] theorem State.setIp_fcause (a : Nat) : (s.setIp a).fcause = s.fcause := rfl
@[simp] theorem State.setIp_fip (a : Nat) : (s.setIp a).fip = s.fip := rfl
@[simp] theorem State.setIp_fword (a : Nat) : (s.setIp a).fword = s.fword := rfl
@[simp] theorem State.setIp_fslot (a : Nat) : (s.setIp a).fslot = s.fslot := rfl
@[simp] theorem State.setIp_params (a : Nat) : (s.setIp a).params = s.params := rfl

/-! `setRb` -/

@[simp] theorem State.setRb_mem (r : I64) : (s.setRb r).mem = s.mem := rfl
@[simp] theorem State.setRb_ip (r : I64) : (s.setRb r).ip = s.ip := rfl
@[simp] theorem State.setRb_rb (r : I64) : (s.setRb r).rb = r := rfl
@[simp] theorem State.setRb_inq (r : I64) : (s.setRb r).inq = s.inq := rfl
@[simp] theorem State.setRb_outq (r : I64) : (s.setRb r).outq = s.outq := rfl
@[simp] theorem State.setRb_st (r : I64) : (s.setRb r).st = s.st := rfl
@[simp] theorem State.setRb_fcause (r : I64) : (s.setRb r).fcause = s.fcause := rfl
@[simp] theorem State.setRb_fip (r : I64) : (s.setRb r).fip = s.fip := rfl
@[simp] theorem State.setRb_fword (r : I64) : (s.setRb r).fword = s.fword := rfl
@[simp] theorem State.setRb_fslot (r : I64) : (s.setRb r).fslot = s.fslot := rfl
@[simp] theorem State.setRb_params (r : I64) : (s.setRb r).params = s.params := rfl

/-! `setInq` -/

@[simp] theorem State.setInq_mem (q : List I64) : (s.setInq q).mem = s.mem := rfl
@[simp] theorem State.setInq_ip (q : List I64) : (s.setInq q).ip = s.ip := rfl
@[simp] theorem State.setInq_rb (q : List I64) : (s.setInq q).rb = s.rb := rfl
@[simp] theorem State.setInq_inq (q : List I64) : (s.setInq q).inq = q := rfl
@[simp] theorem State.setInq_outq (q : List I64) : (s.setInq q).outq = s.outq := rfl
@[simp] theorem State.setInq_st (q : List I64) : (s.setInq q).st = s.st := rfl
@[simp] theorem State.setInq_fcause (q : List I64) : (s.setInq q).fcause = s.fcause := rfl
@[simp] theorem State.setInq_fip (q : List I64) : (s.setInq q).fip = s.fip := rfl
@[simp] theorem State.setInq_fword (q : List I64) : (s.setInq q).fword = s.fword := rfl
@[simp] theorem State.setInq_fslot (q : List I64) : (s.setInq q).fslot = s.fslot := rfl
@[simp] theorem State.setInq_params (q : List I64) : (s.setInq q).params = s.params := rfl

/-! `pushInq` -/

@[simp] theorem State.pushInq_mem (v : I64) : (s.pushInq v).mem = s.mem := rfl
@[simp] theorem State.pushInq_ip (v : I64) : (s.pushInq v).ip = s.ip := rfl
@[simp] theorem State.pushInq_rb (v : I64) : (s.pushInq v).rb = s.rb := rfl
@[simp] theorem State.pushInq_inq (v : I64) : (s.pushInq v).inq = s.inq ++ [v] := rfl
@[simp] theorem State.pushInq_outq (v : I64) : (s.pushInq v).outq = s.outq := rfl
@[simp] theorem State.pushInq_st (v : I64) : (s.pushInq v).st = s.st := rfl
@[simp] theorem State.pushInq_fcause (v : I64) : (s.pushInq v).fcause = s.fcause := rfl
@[simp] theorem State.pushInq_fip (v : I64) : (s.pushInq v).fip = s.fip := rfl
@[simp] theorem State.pushInq_fword (v : I64) : (s.pushInq v).fword = s.fword := rfl
@[simp] theorem State.pushInq_fslot (v : I64) : (s.pushInq v).fslot = s.fslot := rfl
@[simp] theorem State.pushInq_params (v : I64) : (s.pushInq v).params = s.params := rfl

/-! `pushOut` -/

@[simp] theorem State.pushOut_mem (v : I64) : (s.pushOut v).mem = s.mem := rfl
@[simp] theorem State.pushOut_ip (v : I64) : (s.pushOut v).ip = s.ip := rfl
@[simp] theorem State.pushOut_rb (v : I64) : (s.pushOut v).rb = s.rb := rfl
@[simp] theorem State.pushOut_inq (v : I64) : (s.pushOut v).inq = s.inq := rfl
@[simp] theorem State.pushOut_outq (v : I64) : (s.pushOut v).outq = s.outq ++ [v] := rfl
@[simp] theorem State.pushOut_st (v : I64) : (s.pushOut v).st = s.st := rfl
@[simp] theorem State.pushOut_fcause (v : I64) : (s.pushOut v).fcause = s.fcause := rfl
@[simp] theorem State.pushOut_fip (v : I64) : (s.pushOut v).fip = s.fip := rfl
@[simp] theorem State.pushOut_fword (v : I64) : (s.pushOut v).fword = s.fword := rfl
@[simp] theorem State.pushOut_fslot (v : I64) : (s.pushOut v).fslot = s.fslot := rfl
@[simp] theorem State.pushOut_params (v : I64) : (s.pushOut v).params = s.params := rfl

/-! `setOutq` -/

@[simp] theorem State.setOutq_mem (q : List I64) : (s.setOutq q).mem = s.mem := rfl
@[simp] theorem State.setOutq_ip (q : List I64) : (s.setOutq q).ip = s.ip := rfl
@[simp] theorem State.setOutq_rb (q : List I64) : (s.setOutq q).rb = s.rb := rfl
@[simp] theorem State.setOutq_inq (q : List I64) : (s.setOutq q).inq = s.inq := rfl
@[simp] theorem State.setOutq_outq (q : List I64) : (s.setOutq q).outq = q := rfl
@[simp] theorem State.setOutq_st (q : List I64) : (s.setOutq q).st = s.st := rfl
@[simp] theorem State.setOutq_fcause (q : List I64) : (s.setOutq q).fcause = s.fcause := rfl
@[simp] theorem State.setOutq_fip (q : List I64) : (s.setOutq q).fip = s.fip := rfl
@[simp] theorem State.setOutq_fword (q : List I64) : (s.setOutq q).fword = s.fword := rfl
@[simp] theorem State.setOutq_fslot (q : List I64) : (s.setOutq q).fslot = s.fslot := rfl
@[simp] theorem State.setOutq_params (q : List I64) : (s.setOutq q).params = s.params := rfl

/-! `setSt` -/

@[simp] theorem State.setSt_mem (x : Status) : (s.setSt x).mem = s.mem := rfl
@[simp] theorem State.setSt_ip (x : Status) : (s.setSt x).ip = s.ip := rfl
@[simp] theorem State.setSt_rb (x : Status) : (s.setSt x).rb = s.rb := rfl
@[simp] theorem State.setSt_inq (x : Status) : (s.setSt x).inq = s.inq := rfl
@[simp] theorem State.setSt_outq (x : Status) : (s.setSt x).outq = s.outq := rfl
@[simp] theorem State.setSt_st (x : Status) : (s.setSt x).st = x := rfl
@[simp] theorem State.setSt_fcause (x : Status) : (s.setSt x).fcause = s.fcause := rfl
@[simp] theorem State.setSt_fip (x : Status) : (s.setSt x).fip = s.fip := rfl
@[simp] theorem State.setSt_fword (x : Status) : (s.setSt x).fword = s.fword := rfl
@[simp] theorem State.setSt_fslot (x : Status) : (s.setSt x).fslot = s.fslot := rfl
@[simp] theorem State.setSt_params (x : Status) : (s.setSt x).params = s.params := rfl

/-! `takeFault` -/

@[simp] theorem State.takeFault_mem (r : Raise) : (s.takeFault r).mem = s.mem := rfl
@[simp] theorem State.takeFault_ip (r : Raise) : (s.takeFault r).ip = s.ip := rfl
@[simp] theorem State.takeFault_rb (r : Raise) : (s.takeFault r).rb = s.rb := rfl
@[simp] theorem State.takeFault_inq (r : Raise) : (s.takeFault r).inq = s.inq := rfl
@[simp] theorem State.takeFault_outq (r : Raise) : (s.takeFault r).outq = s.outq := rfl
@[simp] theorem State.takeFault_st (r : Raise) : (s.takeFault r).st = .faulted := rfl
@[simp] theorem State.takeFault_fcause (r : Raise) : (s.takeFault r).fcause = some r.cause := rfl
@[simp] theorem State.takeFault_fip (r : Raise) : (s.takeFault r).fip = s.ip := rfl
@[simp] theorem State.takeFault_fword (r : Raise) : (s.takeFault r).fword = s.word := rfl
@[simp] theorem State.takeFault_fslot (r : Raise) : (s.takeFault r).fslot = r.slot := rfl
@[simp] theorem State.takeFault_params (r : Raise) : (s.takeFault r).params = s.params := rfl

/-! `load` -/

@[simp] theorem State.load_mem (p : List I64) : (s.load p).mem = Memory.ofProgram 0 p := rfl
@[simp] theorem State.load_ip (p : List I64) : (s.load p).ip = 0 := rfl
@[simp] theorem State.load_rb (p : List I64) : (s.load p).rb = I64.zero := rfl
@[simp] theorem State.load_inq (p : List I64) : (s.load p).inq = [] := rfl
@[simp] theorem State.load_outq (p : List I64) : (s.load p).outq = [] := rfl
@[simp] theorem State.load_st (p : List I64) : (s.load p).st = .running := rfl
@[simp] theorem State.load_fcause (p : List I64) : (s.load p).fcause = none := rfl
@[simp] theorem State.load_fip (p : List I64) : (s.load p).fip = 0 := rfl
@[simp] theorem State.load_fword (p : List I64) : (s.load p).fword = I64.zero := rfl
@[simp] theorem State.load_fslot (p : List I64) : (s.load p).fslot = none := rfl
@[simp] theorem State.load_params (p : List I64) : (s.load p).params = s.params := rfl

/-! The instruction word depends on memory and `ip` alone. -/

@[simp] theorem State.setRb_word (r : I64) : (s.setRb r).word = s.word := rfl
@[simp] theorem State.setInq_word (q : List I64) : (s.setInq q).word = s.word := rfl
@[simp] theorem State.pushInq_word (v : I64) : (s.pushInq v).word = s.word := rfl
@[simp] theorem State.pushOut_word (v : I64) : (s.pushOut v).word = s.word := rfl
@[simp] theorem State.setOutq_word (q : List I64) : (s.setOutq q).word = s.word := rfl
@[simp] theorem State.setSt_word (x : Status) : (s.setSt x).word = s.word := rfl
@[simp] theorem State.takeFault_word (r : Raise) : (s.takeFault r).word = s.word := rfl

/-! Reset, field by field (R35). -/

@[simp] theorem State.reset_mem : State.reset.mem = [] := rfl
@[simp] theorem State.reset_ip : State.reset.ip = 0 := rfl
@[simp] theorem State.reset_rb : State.reset.rb = I64.zero := rfl
@[simp] theorem State.reset_inq : State.reset.inq = [] := rfl
@[simp] theorem State.reset_outq : State.reset.outq = [] := rfl
@[simp] theorem State.reset_st : State.reset.st = .running := rfl
@[simp] theorem State.reset_fcause : State.reset.fcause = none := rfl
@[simp] theorem State.reset_fip : State.reset.fip = 0 := rfl
@[simp] theorem State.reset_fword : State.reset.fword = I64.zero := rfl
@[simp] theorem State.reset_fslot : State.reset.fslot = none := rfl
@[simp] theorem State.reset_params : State.reset.params = Params.default := rfl

/-! The constants. -/

@[simp] theorem zero_toInt : I64.zero.toInt = 0 := rfl
@[simp] theorem one_toInt : I64.one.toInt = 1 := rfl

end Sys2Proof.Machine
end

