-- ==== Sys2Proof/Laws/Memory.lean ====
section
/-! SUPPORT. The memory controller: what a read sees after each operation, and that the canonical form is kept. -/

namespace Sys2Proof.Machine

@[simp] theorem Memory.read_nil (a : Nat) : Memory.read [] a = I64.zero := rfl

theorem Memory.read_cons (c : Nat × I64) (m : Memory) (a : Nat) :
    Memory.read (c :: m) a = if c.1 = a then c.2 else Memory.read m a := rfl

/-- An address that no entry lists reads 0 (R41). -/
theorem Memory.read_of_not_listed {m : Memory} {a : Nat} (h : ∀ c ∈ m, c.1 ≠ a) : m.read a = I64.zero := by
  induction m with
  | nil => rfl
  | cons c m ih =>
    rw [Memory.read_cons, if_neg (h c (by simp)), ih fun d hd => h d (by simp [hd])]

theorem Memory.read_erase_same (m : Memory) (a : Nat) : (m.erase a).read a = I64.zero :=
  Memory.read_of_not_listed fun c hc => by simpa [Memory.erase] using (List.mem_filter.1 hc).2

theorem Memory.read_erase_other (m : Memory) {a b : Nat} (h : b ≠ a) : (m.erase a).read b = m.read b := by
  induction m with
  | nil => rfl
  | cons c m ih =>
    by_cases hc : c.1 = a
    · have : Memory.erase (c :: m) a = Memory.erase m a := by simp [Memory.erase, hc]
      rw [this, ih, Memory.read_cons, if_neg (by omega)]
    · have : Memory.erase (c :: m) a = c :: Memory.erase m a := by simp [Memory.erase, hc]
      rw [this, Memory.read_cons, Memory.read_cons, ih]

theorem Memory.mem_insert {m : Memory} {a : Nat} {v : I64} {c : Nat × I64} :
    c ∈ m.insert a v ↔ c = (a, v) ∨ c ∈ m := by
  induction m with
  | nil => simp [Memory.insert]
  | cons d m ih =>
    unfold Memory.insert
    split
    · simp
    · simp only [List.mem_cons, ih]; tauto

/-- Inserting at an address that no entry lists. -/
theorem Memory.read_insert (m : Memory) (a : Nat) (v : I64) (h : ∀ c ∈ m, c.1 ≠ a) (b : Nat) :
    (m.insert a v).read b = if b = a then v else m.read b := by
  induction m with
  | nil => simp [Memory.insert, Memory.read_cons, eq_comm]
  | cons c m ih =>
    have hc := h c (by simp)
    have hm := ih fun d hd => h d (by simp [hd])
    unfold Memory.insert
    split
    · simp only [Memory.read_cons, eq_comm (a := a)]
    · rw [Memory.read_cons, hm, Memory.read_cons]
      split
      · rw [if_neg (by omega)]
      · rfl

theorem Memory.erase_not_listed (m : Memory) (a : Nat) : ∀ c ∈ m.erase a, c.1 ≠ a := fun c hc => by
  simpa [Memory.erase] using (List.mem_filter.1 hc).2

theorem Memory.wf_nil : Memory.wf [] := by simp [Memory.wf]

theorem Memory.wf_erase {m : Memory} (h : m.wf) (a : Nat) : (m.erase a).wf :=
  ⟨h.1.filter _, fun c hc => h.2 c (List.mem_filter.1 hc).1⟩

theorem Memory.wf_insert {m : Memory} (h : m.wf) {a : Nat} {v : I64} (ha : a ≤ addrMax) (hv : v ≠ I64.zero)
    (hm : ∀ c ∈ m, c.1 ≠ a) : (m.insert a v).wf := by
  refine ⟨?_, fun c hc => ?_⟩
  · induction m with
    | nil => simp [Memory.insert]
    | cons d m ih =>
      have hd := List.pairwise_cons.1 h.1
      have hda := hm d (by simp)
      unfold Memory.insert
      split
      · rename_i hlt
        refine List.pairwise_cons.2 ⟨fun e he => ?_, h.1⟩
        rcases List.mem_cons.1 he with rfl | he
        · exact hlt
        · exact lt_trans hlt (hd.1 e he)
      · rename_i hlt
        refine List.pairwise_cons.2 ⟨fun e he => ?_, ih ⟨hd.2, fun c hc => h.2 c (by simp [hc])⟩ fun c hc => hm c (by simp [hc])⟩
        rcases Memory.mem_insert.1 he with rfl | he
        · show d.1 < a; omega
        · exact hd.1 e he
  · rcases Memory.mem_insert.1 hc with rfl | hc
    · exact ⟨hv, ha⟩
    · exact h.2 c hc

/-- A write keeps the canonical form. -/
theorem Memory.wf_write {m : Memory} (h : m.wf) {a : Nat} (ha : a ≤ addrMax) (v : I64) : (m.write a v).wf := by
  unfold Memory.write
  split
  · exact Memory.wf_erase h a
  · exact Memory.wf_insert (Memory.wf_erase h a) ha ‹_› (Memory.erase_not_listed m a)

/-- Placing cells keeps the canonical form. -/
theorem Memory.wf_place {m : Memory} (h : m.wf) (a : Nat) (vs : List I64) : (m.place a vs).wf := by
  induction vs generalizing m a with
  | nil => exact h
  | cons v vs ih =>
    unfold Memory.place
    split
    · exact ih (Memory.wf_write h ‹_› v) _
    · exact h

/-- A program's image lists only addresses from its start on. -/
theorem Memory.ofProgram_addr {p : List I64} {a : Nat} {c : Nat × I64} (h : c ∈ Memory.ofProgram a p) :
    a ≤ c.1 ∧ c.1 < a + p.length ∧ c.2 ≠ I64.zero := by
  induction p generalizing a with
  | nil => simp [Memory.ofProgram] at h
  | cons v p ih =>
    unfold Memory.ofProgram at h
    have step {b} (hb : c ∈ Memory.ofProgram (a + 1) p) (_ : b = v) : a ≤ c.1 ∧ c.1 < a + (v :: p).length ∧ c.2 ≠ I64.zero := by
      have := ih hb
      simp only [List.length_cons]
      exact ⟨by omega, by omega, this.2.2⟩
    split at h
    · exact step h rfl
    · rcases List.mem_cons.1 h with rfl | h
      · exact ⟨le_refl _, by simp, ‹_›⟩
      · exact step h rfl

/-- A program's image is canonical, if its last address exists (R158). -/
theorem Memory.wf_ofProgram {p : List I64} {a : Nat} (h : a + p.length ≤ addrMax + 1) : (Memory.ofProgram a p).wf := by
  refine ⟨?_, fun c hc => ⟨(Memory.ofProgram_addr hc).2.2, by have := Memory.ofProgram_addr hc; omega⟩⟩
  clear h
  induction p generalizing a with
  | nil => simp [Memory.ofProgram]
  | cons v p ih =>
    unfold Memory.ofProgram
    split
    · exact ih
    · refine List.pairwise_cons.2 ⟨fun c hc => ?_, ih⟩
      have := (Memory.ofProgram_addr hc).1
      show a < c.1; omega

end Sys2Proof.Machine
end

