-- ==== Sys2Proof/Laws/Operands.lean ====
section
/-! SUPPORT. The address engine and the formats: one lemma for each that says once what it can answer. -/

namespace Sys2Proof.Machine

/-- A sequence of checks answers a value exactly when each of them does. -/
theorem bind_ok {α β : Type} {x : Except Raise α} {f : α → Except Raise β} {b : β} :
    (x >>= f) = .ok b ↔ ∃ a, x = .ok a ∧ f a = .ok b := by
  cases x with
  | error r => exact ⟨fun h => by simp [bind, Except.bind] at h, fun ⟨_, h, _⟩ => by simp at h⟩
  | ok a => exact ⟨fun h => ⟨a, rfl, h⟩, fun ⟨_, h, h'⟩ => by cases h; exact h'⟩

/-- A sequence of checks raises exactly what its first failing check raises. -/
theorem bind_error {α β : Type} {x : Except Raise α} {f : α → Except Raise β} {r : Raise} :
    (x >>= f) = .error r ↔ x = .error r ∨ ∃ a, x = .ok a ∧ f a = .error r := by
  cases x with
  | error e =>
    refine ⟨fun h => .inl (by simpa [bind, Except.bind] using h), fun h => ?_⟩
    rcases h with h | ⟨_, h, _⟩
    · simpa [bind, Except.bind] using h
    · simp at h
  | ok a => exact ⟨fun h => .inr ⟨a, rfl, h⟩, fun h => h.elim (fun h => by simp at h) fun ⟨_, h, h'⟩ => by cases h; exact h'⟩

@[simp] theorem ok_bind {α β : Type} (a : α) (f : α → Except Raise β) : (Except.ok a >>= f) = f a := rfl

@[simp] theorem error_bind {α β : Type} (r : Raise) (f : α → Except Raise β) :
    ((Except.error r : Except Raise α) >>= f) = .error r := rfl

@[simp] theorem pure_eq_ok {α : Type} (a : α) : (pure a : Except Raise α) = .ok a := rfl

theorem checkAddr_ok {k : Option Slot} {z : Int} (h : InMem z) : checkAddr k z = .ok z.toNat := if_pos h

theorem checkAddr_error {k : Option Slot} {z : Int} (h : ¬ InMem z) : checkAddr k z = .error ⟨.addressOutOfRange, k⟩ :=
  if_neg h

/-- The range check answers exactly the address the integer is. -/
theorem checkAddr_eq_ok {k : Option Slot} {z : Int} {a : Nat} :
    checkAddr k z = .ok a ↔ InMem z ∧ a = z.toNat := by
  by_cases h : InMem z
  · rw [checkAddr_ok h]; exact ⟨fun e => ⟨h, by cases e; rfl⟩, fun e => by rw [e.2]⟩
  · rw [checkAddr_error h]; exact ⟨fun e => by simp at e, fun e => absurd e.1 h⟩

theorem checkAddr_eq_error {k : Option Slot} {z : Int} {r : Raise} :
    checkAddr k z = .error r ↔ ¬ InMem z ∧ r = ⟨.addressOutOfRange, k⟩ := by
  by_cases h : InMem z
  · rw [checkAddr_ok h]; exact ⟨fun e => by simp at e, fun e => absurd h e.1⟩
  · rw [checkAddr_error h]; exact ⟨fun e => ⟨h, by cases e; rfl⟩, fun e => by rw [e.2]⟩

theorem paramCell_ok {s : State} {k : Slot} (h : InMem (s.ip + k.offset)) : paramCell s k = .ok (paramValue s k) := by
  unfold paramCell
  rw [checkAddr_ok h]
  rfl

theorem paramCell_error {s : State} {k : Slot} (h : ¬ InMem (s.ip + k.offset)) :
    paramCell s k = .error ⟨.addressOutOfRange, some k⟩ := by
  unfold paramCell
  rw [checkAddr_error h]
  rfl

/-- Position and Relative resolution, when everything is in range (R94). -/
theorem effAddr_ok {s : State} {k : Slot} {m : Mode} (hm : m ≠ .immediate) (h : Resolvable s k m) :
    effAddr s k m = .ok (operandAddr s k m).toNat := by
  cases m with
  | immediate => exact absurd rfl hm
  | position | relative => unfold effAddr; rw [paramCell_ok h.1, ok_bind]; exact checkAddr_ok h.2

/-- Position and Relative resolution, when something is out of range (R95). -/
theorem effAddr_error {s : State} {k : Slot} {m : Mode} (hm : m ≠ .immediate) (h : ¬ Resolvable s k m) :
    effAddr s k m = .error ⟨.addressOutOfRange, some k⟩ := by
  by_cases hp : InMem (s.ip + k.offset)
  · have ha : ¬ InMem (operandAddr s k m) := fun ha => h ⟨hp, ha⟩
    cases m with
    | immediate => exact absurd rfl hm
    | position | relative => unfold effAddr; rw [paramCell_ok hp, ok_bind]; exact checkAddr_error ha
  · cases m with
    | immediate => exact absurd rfl hm
    | position | relative => unfold effAddr; rw [paramCell_error hp]; rfl

/-- Operand resolution, when everything is in range (R91 to R93). -/
theorem resolveRead_ok {s : State} {k : Slot} {m : Mode} (h : Resolvable s k m) :
    resolveRead s k m = .ok (operandValue s k m) := by
  cases m with
  | immediate =>
    refine (paramCell_ok h.1).trans ?_
    have : ((s.ip + k.offset : Int)).toNat = s.ip + k.offset := by omega
    simp [operandValue, operandAddr, paramValue, this]
  | position | relative =>
    unfold resolveRead
    rw [effAddr_ok (by decide) h]
    rfl

/-- Operand resolution, when something is out of range (R95). -/
theorem resolveRead_error {s : State} {k : Slot} {m : Mode} (h : ¬ Resolvable s k m) :
    resolveRead s k m = .error ⟨.addressOutOfRange, some k⟩ := by
  cases m with
  | immediate => exact paramCell_error fun hp => h ⟨hp, hp⟩
  | position | relative =>
    unfold resolveRead
    rw [effAddr_error (by decide) h]
    rfl

theorem advance_ok {s : State} {len : Nat} (h : s.ip + len ≤ addrMax) : advance s len = .ok (s.ip + len) := by
  unfold advance
  rw [checkAddr_ok ⟨by omega, by omega⟩]
  congr 1

theorem advance_error {s : State} {len : Nat} (h : addrMax < s.ip + len) :
    advance s len = .error ⟨.addressOutOfRange, none⟩ :=
  checkAddr_error fun h' => by have := h'.2; omega

theorem advance_eq_ok {s : State} {len n : Nat} : advance s len = .ok n ↔ s.ip + len ≤ addrMax ∧ n = s.ip + len := by
  by_cases h : s.ip + len ≤ addrMax
  · rw [advance_ok h]; exact ⟨fun e => ⟨h, by cases e; rfl⟩, fun e => by rw [e.2]⟩
  · rw [advance_error (by omega)]; exact ⟨fun e => by simp at e, fun e => absurd e.1 h⟩

/-- A resolved destination is an address. -/
theorem resolveWrite_le {s : State} {k : Slot} {m : Mode} {d : Nat} (h : resolveWrite s k m = .ok d) : d ≤ addrMax := by
  cases m with
  | immediate => simp [resolveWrite, effAddr] at h
  | position | relative =>
    obtain ⟨p, -, hd⟩ := bind_ok.1 h
    obtain ⟨⟨_, h2⟩, rfl⟩ := checkAddr_eq_ok.1 hd
    omega

theorem checkResult_ok {z : Int} (h : InI64 z) : checkResult z = .ok ⟨z, h⟩ := dif_pos h

theorem checkResult_error {z : Int} (h : ¬ InI64 z) : checkResult z = .error ⟨.arithmeticOverflow, none⟩ := dif_neg h

/-! What each format does, when it answers a state. -/

theorem effectRRW_ok {f : I64 → I64 → Except Raise I64} {m1 m2 m3 : Mode} {s t : State} :
    effectRRW f m1 m2 m3 s = .ok t ↔ ∃ a b d v, resolveRead s .p1 m1 = .ok a ∧ resolveRead s .p2 m2 = .ok b ∧
      resolveWrite s .p3 m3 = .ok d ∧ s.ip + 4 ≤ addrMax ∧ f a b = .ok v ∧ t = (s.writeCell d v).setIp (s.ip + 4) := by
  simp only [effectRRW, bind_ok, advance_eq_ok, pure_eq_ok, Except.ok.injEq]
  constructor
  · rintro ⟨a, ha, b, hb, d, hd, n, ⟨hn, rfl⟩, v, hv, rfl⟩
    exact ⟨a, b, d, v, ha, hb, hd, hn, hv, rfl⟩
  · rintro ⟨a, b, d, v, ha, hb, hd, hn, hv, rfl⟩
    exact ⟨a, ha, b, hb, d, hd, _, ⟨hn, rfl⟩, v, hv, rfl⟩

theorem jumpNext_ok {s : State} {taken : Bool} {g : I64} {n : Nat} : jumpNext s taken g = .ok n ↔
    (taken = true ∧ InMem g.toInt ∧ n = g.toInt.toNat) ∨ (taken = false ∧ s.ip + 3 ≤ addrMax ∧ n = s.ip + 3) := by
  cases taken
  · simp [jumpNext, advance_eq_ok]
  · simp only [jumpNext, if_true, checkAddr_eq_ok]; simp

theorem effectRR_ok {taken : I64 → Bool} {m1 m2 : Mode} {s t : State} :
    effectRR taken m1 m2 s = .ok t ↔ ∃ c g, resolveRead s .p1 m1 = .ok c ∧ resolveRead s .p2 m2 = .ok g ∧
      ((taken c = true ∧ InMem g.toInt ∧ t = s.setIp g.toInt.toNat) ∨
       (taken c = false ∧ s.ip + 3 ≤ addrMax ∧ t = s.setIp (s.ip + 3))) := by
  simp only [effectRR, bind_ok, pure_eq_ok, Except.ok.injEq, jumpNext_ok]
  constructor
  · rintro ⟨c, hc, g, hg, n, ⟨h1, h2, rfl⟩ | ⟨h1, h2, rfl⟩, rfl⟩
    · exact ⟨c, g, hc, hg, .inl ⟨h1, h2, rfl⟩⟩
    · exact ⟨c, g, hc, hg, .inr ⟨h1, h2, rfl⟩⟩
  · rintro ⟨c, g, hc, hg, ⟨h1, h2, rfl⟩ | ⟨h1, h2, rfl⟩⟩
    · exact ⟨c, hc, g, hg, _, .inl ⟨h1, h2, rfl⟩, rfl⟩
    · exact ⟨c, hc, g, hg, _, .inr ⟨h1, h2, rfl⟩, rfl⟩

theorem effectR_ok {use : I64 → State → Except Raise State} {m1 : Mode} {s t : State} :
    effectR use m1 s = .ok t ↔ ∃ a u, resolveRead s .p1 m1 = .ok a ∧ s.ip + 2 ≤ addrMax ∧ use a s = .ok u ∧
      t = u.setIp (s.ip + 2) := by
  simp only [effectR, bind_ok, advance_eq_ok, pure_eq_ok, Except.ok.injEq]
  constructor
  · rintro ⟨a, ha, n, ⟨hn, rfl⟩, u, hu, rfl⟩
    exact ⟨a, u, ha, hn, hu, rfl⟩
  · rintro ⟨a, u, ha, hn, hu, rfl⟩
    exact ⟨a, ha, _, ⟨hn, rfl⟩, u, hu, rfl⟩

theorem effectW_ok {m1 : Mode} {s t : State} :
    effectW m1 s = .ok t ↔ ∃ d, resolveWrite s .p1 m1 = .ok d ∧ s.ip + 2 ≤ addrMax ∧
      ((s.inq = [] ∧ t = s.setSt .blocked) ∨
       ∃ v rest, s.inq = v :: rest ∧ t = ((s.setInq rest).writeCell d v).setIp (s.ip + 2)) := by
  simp only [effectW, bind_ok, advance_eq_ok, pure_eq_ok, Except.ok.injEq]
  constructor
  · rintro ⟨d, hd, n, ⟨hn, rfl⟩, rfl⟩
    refine ⟨d, hd, hn, ?_⟩
    cases hq : s.inq with
    | nil => exact .inl ⟨rfl, rfl⟩
    | cons v rest => exact .inr ⟨v, rest, rfl, rfl⟩
  · rintro ⟨d, hd, hn, ⟨hq, rfl⟩ | ⟨v, rest, hq, rfl⟩⟩
    · exact ⟨d, hd, _, ⟨hn, rfl⟩, by rw [hq]⟩
    · exact ⟨d, hd, _, ⟨hn, rfl⟩, by rw [hq]⟩

/-- How an instruction ends: always in a next state, its effect's or that of fault entry (R190). -/
theorem settle_next {s t : State} {e : Except Raise State} :
    s.settle e = .next t ↔ e = .ok t ∨ ∃ r, e = .error r ∧ t = s.takeFault r := by
  cases e with
  | ok u => simp [State.settle]
  | error r => simp [State.settle, eq_comm]

@[simp] theorem settle_ok (s t : State) : s.settle (.ok t) = .next t := rfl

@[simp] theorem settle_error (s : State) (r : Raise) : s.settle (.error r) = .next (s.takeFault r) := rfl

end Sys2Proof.Machine
end

