-- ==== Sys2Proof/Laws/Step.lean ====
section
/-! SUPPORT. The step and the run loop: each unfolded once. -/

namespace Sys2Proof.Machine

/-- The effect of an instruction before it is settled: what its meaning does where it raises nothing. -/
def effectOf : Instr → State → Except Raise State
  | .add m1 m2 m3, s => effectRRW (fun a b => checkResult (a.toInt + b.toInt)) m1 m2 m3 s
  | .mul m1 m2 m3, s => effectRRW (fun a b => checkResult (a.toInt * b.toInt)) m1 m2 m3 s
  | .inp m1 _ _, s => effectW m1 s
  | .out m1 _ _, s => effectR (fun a t => .ok (t.pushOut a)) m1 s
  | .jt m1 m2 _, s => effectRR isNonZero m1 m2 s
  | .jf m1 m2 _, s => effectRR isZero m1 m2 s
  | .lt m1 m2 m3, s => effectRRW (fun a b => .ok (truthValue (lessThan a b))) m1 m2 m3 s
  | .eq m1 m2 m3, s => effectRRW (fun a b => .ok (truthValue (equals a b))) m1 m2 m3 s
  | .hlt _ _ _, s => .ok (s.setSt .halted)
  | .arb m1 _ _, s => effectR (fun a t => (checkResult (t.rb.toInt + a.toInt)).map t.setRb) m1 s

/-- Every meaning is its effect, settled: all of it, or fault entry (R190). -/
theorem exec_eq_settle (i : Instr) (s : State) : exec i s = s.settle (effectOf i s) := by cases i <;> rfl

/-- What an instruction can answer: its effect, or fault entry. -/
theorem exec_next {i : Instr} {s t : State} :
    exec i s = .next t ↔ effectOf i s = .ok t ∨ ∃ r, effectOf i s = .error r ∧ t = s.takeFault r := by
  rw [exec_eq_settle, settle_next]

/-- No meaning stops. -/
theorem exec_answers_next (i : Instr) (s : State) : ∃ t, exec i s = .next t := by
  rw [exec_eq_settle]
  cases effectOf i s with
  | ok t => exact ⟨t, rfl⟩
  | error r => exact ⟨_, rfl⟩

/-- A step on a running machine: the decoded instruction, or the decoder's fault (R150). -/
theorem step_of_running {s : State} (h : s.st = .running) :
    step s = match fetch s with
      | .ok i => exec i s
      | .error r => .next (s.takeFault r) := by
  unfold step sequencerStep
  rw [h]
  rfl

/-- What a step of a running machine can answer. -/
theorem step_next {s t : State} (h : s.st = .running) :
    step s = .next t ↔ (∃ i, fetch s = .ok i ∧ exec i s = .next t) ∨ ∃ r, fetch s = .error r ∧ t = s.takeFault r := by
  rw [step_of_running h]
  cases fetch s with
  | ok i => simp
  | error r => simp [eq_comm]

/-- A step answers a next state only on a running machine. -/
theorem running_of_step {s t : State} (h : step s = .next t) : s.st = .running := by
  unfold step sequencerStep at h
  split at h <;> first | assumption | cases h

theorem step_answers_next {s : State} (h : s.st = .running) : ∃ t, step s = .next t := by
  rw [step_of_running h]
  cases fetch s with
  | ok i => exact exec_answers_next i s
  | error r => exact ⟨_, rfl⟩

theorem runLoop_stopped {s : State} (h : s.st ≠ .running) (n : Nat) : runLoop n s = some s := by
  cases n <;> simp [runLoop, h]

theorem runLoop_zero_running {s : State} (h : s.st = .running) : runLoop 0 s = none := by simp [runLoop, h]

theorem runLoop_succ {s t : State} (h : step s = .next t) (n : Nat) : runLoop (n + 1) s = runLoop n t := by
  simp [runLoop, running_of_step h, h]

/-- What a loop that returned did: nothing, or a step and a shorter loop. -/
theorem runLoop_cases {n : Nat} {s t : State} (h : runLoop n s = some t) :
    (s.st ≠ .running ∧ t = s) ∨ ∃ k u, n = k + 1 ∧ step s = .next u ∧ runLoop k u = some t := by
  by_cases hs : s.st = .running
  · obtain ⟨u, hu⟩ := step_answers_next hs
    cases n with
    | zero => simp [runLoop, hs] at h
    | succ k => exact .inr ⟨k, u, rfl, hu, by rwa [runLoop_succ hu] at h⟩
  · rw [runLoop_stopped hs] at h
    exact .inl ⟨hs, by cases h; rfl⟩

end Sys2Proof.Machine
end

