-- ==== Sys2Proof/Tests/Slice0.lean ====
section
/-! SUPPORT. Small tests, expected results from spec/95_test_vectors.md and the rules named; and, for each statement
with hypotheses, a witness that they can be met. -/

namespace Sys2Proof.Tests

open Sys2Proof.Machine

/-- An integer as a value (0 where it is none). -/
def v (z : Int) : I64 := if h : InI64 z then ⟨z, h⟩ else I64.zero

/-- The state after `LOAD` of a program. -/
def prog (cells : List Int) : State := State.reset.load (cells.map v)

/-- The state after one step, if it is a next state. -/
def stepped (s : State) : Option State :=
  match step s with
  | .next t => some t
  | .fault _ => none
  | .refused _ => none

theorem step_of_stepped {s t : State} (h : stepped s = some t) : step s = .next t := by
  unfold stepped at h
  split at h <;> cases h
  assumption

/-- A result, or nothing where there is an error. -/
def value? {α : Type} : Except Raise α → Option α
  | .ok a => some a
  | .error _ => none

/-- The fault, or nothing where there is a result. -/
def raised? {α : Type} : Except Raise α → Option Raise
  | .ok _ => none
  | .error r => some r

/-- `fcause` and `fslot` as the host reads them. -/
def record (s : State) : Nat × Nat × I64 × Nat := (causeCode s.fcause, s.fip, s.fword, slotCode s.fslot)

/-! WellFormed: the one check, R71, refuses Immediate in each write slot and nothing else. -/

theorem test_wf_refuses_add : ¬ WellFormed (.add .position .position .immediate) := by decide
theorem test_wf_refuses_mul : ¬ WellFormed (.mul .position .position .immediate) := by decide
theorem test_wf_refuses_lt : ¬ WellFormed (.lt .position .position .immediate) := by decide
theorem test_wf_refuses_eq : ¬ WellFormed (.eq .position .position .immediate) := by decide
theorem test_wf_refuses_inp : ¬ WellFormed (.inp .immediate .position .position) := by decide
theorem test_wf_accepts_unused : WellFormed (.jt .position .position .immediate) ∧ WellFormed (.out .immediate .position .immediate) := by decide

/-! Decoding, words of 95_test_vectors.md 2.1, written out digit by digit; every constructor. -/

theorem test_decode_add : value? (decode false (v 21101)) = some (.add .immediate .immediate .relative) := by decide
theorem test_decode_mul : value? (decode false (v 1002)) = some (.mul .position .immediate .position) := by decide
theorem test_decode_inp : value? (decode false (v 1003)) = some (.inp .position .immediate .position) := by decide
theorem test_decode_out : value? (decode false (v 10104)) = some (.out .immediate .position .immediate) := by decide
theorem test_decode_jt : value? (decode false (v 10005)) = some (.jt .position .position .immediate) := by decide
theorem test_decode_jf : value? (decode false (v 2106)) = some (.jf .immediate .relative .position) := by decide
theorem test_decode_lt : value? (decode false (v 7)) = some (.lt .position .position .position) := by decide
theorem test_decode_eq : value? (decode false (v 1108)) = some (.eq .immediate .immediate .position) := by decide
theorem test_decode_hlt : value? (decode false (v 1199)) = some (.hlt .immediate .immediate .position) := by decide
theorem test_decode_arb : value? (decode true (v 209)) = some (.arb .relative .position .position) := by decide
theorem test_decode_arb_absent : raised? (decode false (v 209)) = some ⟨.unknownOpcode, none⟩ := by decide
theorem test_decode_opcode_before_mode : raised? (decode false (v 377)) = some ⟨.unknownOpcode, none⟩ := by decide
theorem test_decode_lowest_bad_mode : raised? (decode false (v 93901)) = some ⟨.unknownParameterMode, some .p1⟩ := by decide
theorem test_decode_unused_bad_mode : raised? (decode false (v 30099)) = some ⟨.unknownParameterMode, some .p3⟩ := by decide
theorem test_decode_immediate_target : raised? (decode false (v 103)) = some ⟨.immediateWriteTarget, some .p1⟩ := by decide
theorem test_decode_six_digits : raised? (decode false (v 100001)) = some ⟨.instructionWordOutOfRange, none⟩ := by decide
theorem test_decode_negative : raised? (decode false (v (-99))) = some ⟨.instructionWordOutOfRange, none⟩ := by decide
theorem test_encode : encode (.mul .relative .relative .relative) = v 22202 := by decide

/-! The table's bits (log 7), and an instruction placed for the next step. -/

theorem test_table_word : decodeTableWord 8 4 = some (.out .position .position .position) := by decide
theorem test_table_word_signed : tableCell 128 (1101 + 2 ^ 64 * (2 ^ 64 - 1)) 1 = v (-1) := by decide
theorem test_placed_word_runs : (stepped (State.reset.withFetchWord 8 99)).map (fun t => t.st) = some .halted := by decide
theorem test_placed_arb_runs : (stepped (State.reset.withFetchWord 80 (109 + 2 ^ 64 * 7))).map (fun t => (t.rb, t.ip)) = some (v 7, 2) := by decide
theorem test_reset_runs_off : (stepped State.reset).map record = some (1, 0, v 0, 0) := by decide

/-! Each instruction: vectors S1 to S6, AM, IN, O, JP, LT, EQ, HL, X, N and FP of 95_test_vectors.md. -/

theorem test_add : (stepped (prog [1, 9, 10, 3, 2, 3, 11, 0, 99, 30, 40, 50])).map (fun t => (t.mem.read 3, t.ip)) = some (v 70, 4) := by decide
theorem test_add_overflow : (stepped (prog [1101, 9223372036854775807, 1, 0, 99])).map (fun t => (record t, t.mem.read 0, t.ip)) = some ((6, 0, v 1101, 0), v 1101, 0) := by decide
theorem test_mul : (stepped (prog [1102, -3, 5, 0, 99])).map (fun t => (t.mem.read 0, t.ip)) = some (v (-15), 4) := by decide
theorem test_mul_overflow : (stepped (prog [21102, -9223372036854775808, -1, -5, 99])).map record = some (5, 0, v 21102, 3) := by decide
theorem test_inp : (stepped ((prog [3, 9, 8, 9, 10, 9, 4, 9, 99, -1, 8]).setInq [v 8, v 5])).map (fun t => (t.mem.read 9, t.inq, t.ip)) = some (v 8, [v 5], 2) := by decide
theorem test_inp_fault_before_block : (stepped (prog [3, -1, 99])).map record = some (5, 0, v 3, 1) := by decide
theorem test_out : (stepped (((prog [204, 5, 99]).setRb (v (-5))).pushOut (v 1))).map (fun t => (t.outq, t.ip)) = some ([v 1, v 204], 2) := by decide
theorem test_out_no_wrap : (stepped ((prog [204, 9223372036854775807, 99]).setRb (v 1))).map record = some (5, 0, v 204, 1) := by decide
theorem test_jt : (stepped (prog [1105, -1, 4, 99, 104, 1, 99])).map (fun t => t.ip) = some 4 := by decide
theorem test_jt_negative_target : (stepped (prog [1105, 1, -5, 99])).map (fun t => (record t, t.ip)) = some ((5, 0, v 1105, 2), 0) := by decide
theorem test_jf : (stepped (prog [6, 9, 3, 2, 99])).map (fun t => t.ip) = some 2 := by decide
theorem test_jf_resolves_untaken_target : (stepped (prog [106, 1, -3, 99])).map record = some (5, 0, v 106, 2) := by decide
theorem test_lt : (stepped (prog [1107, -9223372036854775808, 9223372036854775807, 5, 99, 7])).map (fun t => t.mem.read 5) = some (v 1) := by decide
theorem test_lt_own_word : (stepped (prog [7, 0, 1, 0, 99])).map (fun t => (t.mem.read 0, t.ip)) = some (v 0, 4) := by decide
theorem test_eq : (stepped (prog [8, 100, 101, 0, 99])).map (fun t => t.mem.read 0) = some (v 1) := by decide
theorem test_eq_sign : (stepped (prog [1108, -8, 8, 5, 99, 7])).map (fun t => t.mem.read 5) = some (v 0) := by decide
theorem test_hlt : (stepped (prog [11199, 5])).map (fun t => (t.st, t.ip)) = some (.halted, 0) := by decide
theorem test_arb : (stepped { prog [209, 3, 99, 7] with params := ⟨true⟩ }).map (fun t => (t.rb, t.ip)) = some (v 7, 2) := by decide
theorem test_arb_absent : (stepped (prog [109, 1, 99])).map record = some (1, 0, v 109, 0) := by decide

/-! The host's numbers and transactions (R26, R181, vectors RUN1, RUN5 and the queue vectors). -/

theorem test_status_codes : [Status.running, .halted, .blocked, .faulted].map Status.code = [0, 1, 2, 3] := by decide
theorem test_run_after_halt : (run 1 ((prog [99]).setSt .halted)).map record = some (7, 0, v 99, 0) := by decide
theorem test_pop_none : transact 0 (prog [99]) .popOutput = some (prog [99], .noneAvailable) := by decide
theorem test_read_mem_nothing : transact 0 (prog [99]) (.readMem 0 0) = some (prog [99], .cells []) := by decide
theorem test_read_mem_too_far : transact 0 (prog [99]) (.readMem addrMax 2) = none := by decide

/-! Witnesses: states and operands that meet the hypotheses of each statement, clause by clause, at the edges of
their ranges. -/

/-- A running machine at the last address but `k`, with these cells from there on. -/
def top (k : Nat) (cells : List Int) : State := { State.reset with mem := Memory.ofProgram (addrMax - k) (cells.map v), ip := addrMax - k }

theorem witness_WriteChangesOneCell : (0 : Nat) ≠ addrMax := by decide
theorem witness_CanonicalMemoryIsItsReads : ∃ m n : Memory, m.wf ∧ n.wf ∧ (∀ a, m.read a = n.read a) ∧ m = [(0, v 1), (addrMax, v (-1))] :=
  ⟨_, _, by decide, by decide, fun _ => rfl, rfl⟩
theorem witness_DecodeOfEncodeIsTheInstruction : WellFormed (.add .immediate .relative .relative) ∧ WellFormed (.arb .relative .relative .relative) ∧
    ((Instr.arb .relative .relative .relative).opcode = 9 → true = true) := by decide
theorem witness_decodes : decode false (v 1) = .ok (.add .position .position .position) ∧ decode false (v 22299) = .ok (.hlt .relative .relative .relative) ∧
    decode true (v 22209) = .ok (.arb .relative .relative .relative) := ⟨rfl, rfl, rfl⟩
theorem witness_UnknownOpcodeIsRejected : (∀ w ∈ [v 0, v 9, v 98, v 99900, v 99998], 0 ≤ w.toInt ∧ w.toInt ≤ 99999 ∧
    (w.toInt % 100 = 0 ∨ 9 ≤ w.toInt % 100 ∧ w.toInt % 100 ≤ 98)) ∧ State.reset.st = .running ∧ State.reset.mem.read 0 = I64.zero := by decide

/-- The fields of a word, as `Obligations.DecoderChecksInOrder` names them. -/
def fields (w : Int) : Int × Int × Int × Int := (w % 100, w / 100 % 10, w / 1000 % 10, w / 10000 % 10)

theorem witness_DecoderChecksInOrder :
    (¬ (0 ≤ (v (-1)).toInt)) ∧ (v 100000).toInt = 100000 ∧ fields 98 = (98, 0, 0, 0) ∧ fields 301 = (1, 3, 0, 0) ∧ fields 3201 = (1, 2, 3, 0) ∧
    fields 32201 = (1, 2, 2, 3) ∧ fields 10001 = (1, 0, 0, 1) ∧ fields 103 = (3, 1, 0, 0) ∧ fields 22299 = (99, 2, 2, 2) ∧ fields 10005 = (5, 0, 0, 1) := by decide
theorem witness_ReadParametersResolve :
    ¬ ((top 0 [104]).ip + Slot.p1.offset ≤ addrMax) ∧ (top 1 [104, 7]).ip + Slot.p1.offset ≤ addrMax ∧
    0 ≤ ((prog [4, 0]).mem.read 1).toInt ∧ ((prog [4, -1]).mem.read 1).toInt < 0 ∧
    (v 1).toInt + ((prog [204, -1]).mem.read 1).toInt = 0 ∧ (v 1).toInt + ((prog [204, 9223372036854775806]).mem.read 1).toInt = addrMax ∧
    (v 1).toInt + ((prog [204, -2]).mem.read 1).toInt < 0 ∧ addrMax < (v 1).toInt + ((prog [204, 9223372036854775807]).mem.read 1).toInt := by decide
theorem witness_WriteParametersResolve : Mode.relative ≠ .immediate ∧ value? (resolveWrite (prog [3, 9223372036854775807]) .p1 .position) = some addrMax ∧
    raised? (resolveWrite (top 0 [3]) .p1 .position) = some ⟨.addressOutOfRange, some .p1⟩ ∧ (Instr.inp .position .immediate .position).writeSlot = some .p1 := by decide
theorem witness_RelativeAtBaseZeroIsPosition : (prog [204, 2, 99]).rb = I64.zero := by decide

/-- What the three-operand results assume, of a state whose parameters are Immediate, Immediate and Position. -/
def ready (s : State) : Option (I64 × I64 × Nat) :=
  if s.ip + 4 ≤ addrMax then
    match resolveRead s .p1 .immediate, resolveRead s .p2 .immediate, resolveWrite s .p3 .position with
    | .ok a, .ok b, .ok d => some (a, b, d)
    | _, _, _ => none
  else none

theorem witness_AddStoresTheExactSum : ready (top 4 [1101, 9223372036854775806, 1, 0]) = some (v 9223372036854775806, v 1, 0) ∧
    InI64 ((v 9223372036854775806).toInt + (v 1).toInt) := by decide
theorem witness_MulStoresTheExactProduct : ready (prog [1102, 3037000499, 3037000499, 0, 99]) = some (v 3037000499, v 3037000499, 0) ∧
    InI64 ((v 3037000499).toInt * (v 3037000499).toInt) := by decide
theorem witness_LessThanStoresOneOrZero : ready (prog [1107, -1, 0, 5]) = some (v (-1), v 0, 5) ∧ (v (-1)).toInt < (v 0).toInt ∧
    ready (prog [1107, 3, 3, 5]) = some (v 3, v 3, 5) ∧ (v 3).toInt ≤ (v 3).toInt := by decide
theorem witness_EqualsStoresOneOrZero : ready (prog [1108, 8, 8, 5]) = some (v 8, v 8, 5) ∧ (v 8).toInt = (v 8).toInt ∧
    ready (prog [1108, -8, 8, 5]) = some (v (-8), v 8, 5) ∧ (v (-8)).toInt ≠ (v 8).toInt := by decide
theorem witness_InputStoresTheOldestValue : value? (resolveWrite ((top 2 [3, 0]).setInq [v 7]) .p1 .position) = some 0 ∧ (top 2 [3, 0]).ip + 2 ≤ addrMax ∧
    ((top 2 [3, 0]).setInq [v 7]).inq = [v 7] := by decide
theorem witness_InputSuspendsOnAnEmptyQueue : value? (resolveWrite (top 2 [3, 0]) .p1 .position) = some 0 ∧ (top 2 [3, 0]).ip + 2 ≤ addrMax ∧
    (top 2 [3, 0]).inq = [] := by decide
theorem witness_OutputAppendsItsOperand : value? (resolveRead (top 2 [104, 7, 99]) .p1 .immediate) = some (v 7) ∧ (top 2 [104, 7, 99]).ip + 2 ≤ addrMax := by decide

/-- A jump's condition and target, Immediate both. -/
def jump (s : State) : Option (I64 × I64) :=
  match resolveRead s .p1 .immediate, resolveRead s .p2 .immediate with
  | .ok c, .ok g => some (c, g)
  | _, _ => none

theorem witness_JumpsSetIp : jump (prog [1105, -1, 0]) = some (v (-1), v 0) ∧ (v (-1)).toInt ≠ 0 ∧ 0 ≤ (v 0).toInt ∧
    jump (top 3 [1105, 0, -5]) = some (v 0, v (-5)) ∧ (v 0).toInt = 0 ∧ (top 3 [1105, 0, -5]).ip + 3 ≤ addrMax ∧
    jump (prog [1106, 0, 9223372036854775807]) = some (v 0, v 9223372036854775807) ∧ 0 ≤ (v 9223372036854775807).toInt ∧
    jump (top 3 [1106, -1, -5]) = some (v (-1), v (-5)) ∧ (top 3 [1106, -1, -5]).ip + 3 ≤ addrMax := by decide
theorem witness_AdjustAddsToTheRelativeBase : value? (resolveRead (prog [109, 1]) .p1 .immediate) = some (v 1) ∧
    InI64 (((prog [109, 1]).setRb (v 9223372036854775806)).rb.toInt + (v 1).toInt) := by decide
theorem witness_ThreeOperandFormsFaultInSlotOrder :
    ¬ Resolvable (prog [1, -1]) .p1 .position ∧
    (Resolvable (prog [1, 0, -1]) .p1 .position ∧ ¬ Resolvable (prog [1, 0, -1]) .p2 .position) ∧
    (Resolvable (top 2 [1101, 1, 1]) .p1 .immediate ∧ Resolvable (top 2 [1101, 1, 1]) .p2 .immediate ∧ ¬ Resolvable (top 2 [1101, 1, 1]) .p3 .position) ∧
    (Resolvable (top 3 [1101, 1, 1, 0]) .p1 .immediate ∧ Resolvable (top 3 [1101, 1, 1, 0]) .p2 .immediate ∧
      Resolvable (top 3 [1101, 1, 1, 0]) .p3 .position ∧ addrMax < (top 3 [1101, 1, 1, 0]).ip + 4) := by decide
theorem witness_OverflowFaultsAndWritesNothing :
    ready (prog [1101, 9223372036854775807, 1, 0]) = some (v 9223372036854775807, v 1, 0) ∧ ¬ InI64 ((v 9223372036854775807).toInt + (v 1).toInt) ∧
    ready (prog [1102, -9223372036854775808, -1, 0]) = some (v (-9223372036854775808), v (-1), 0) ∧ ¬ InI64 ((v (-9223372036854775808)).toInt * (v (-1)).toInt) ∧
    value? (resolveRead (prog [109, 1]) .p1 .immediate) = some (v 1) ∧ ¬ InI64 (((prog [109, 1]).setRb (v 9223372036854775807)).rb.toInt + (v 1).toInt) := by decide
theorem witness_OneOperandFormsFaultBeforeTheirEffect : ¬ Resolvable (top 0 [104]) .p1 .immediate ∧
    Resolvable (top 1 [104, 7]) .p1 .immediate ∧ addrMax < (top 1 [104, 7]).ip + 2 ∧ Mode.position ≠ .immediate := by decide
theorem witness_JumpsFault : ¬ Resolvable (prog [5, -1]) .p1 .position ∧
    (Resolvable (prog [105, 1, -3]) .p1 .immediate ∧ ¬ Resolvable (prog [105, 1, -3]) .p2 .position) ∧
    (Resolvable (prog [1105, 1, -1]) .p1 .immediate ∧ Resolvable (prog [1105, 1, -1]) .p2 .immediate ∧
      (operandValue (prog [1105, 1, -1]) .p1 .immediate).toInt ≠ 0 ∧ (operandValue (prog [1105, 1, -1]) .p2 .immediate).toInt < 0) ∧
    (Resolvable (top 2 [1105, 0, 0]) .p1 .immediate ∧ Resolvable (top 2 [1105, 0, 0]) .p2 .immediate ∧
      (operandValue (top 2 [1105, 0, 0]) .p1 .immediate).toInt = 0 ∧ addrMax < (top 2 [1105, 0, 0]).ip + 3) := by decide
theorem witness_StepRunsTheDecodedInstruction : (prog [99]).st = .running ∧ value? (decode false ((prog [99]).mem.read 0)) = some (.hlt .position .position .position) := by decide
theorem witness_StepTakesTheDecodersFault : (prog [399]).st = .running ∧ raised? (decode false ((prog [399]).mem.read 0)) = some ⟨.unknownParameterMode, some .p1⟩ := by decide
theorem witness_StepStopsOutsideRunning : (State.reset.setSt .halted).st = .halted ∧ (State.reset.setSt .blocked).st = .blocked ∧ (State.reset.setSt .faulted).st = .faulted := by decide
theorem witness_next_state : step (prog [104, 7, 99]) = .next (((prog [104, 7, 99]).pushOut (v 7)).setIp 2) ∧
    (((prog [104, 7, 99]).pushOut (v 7)).setIp 2).st = .running ∧ (prog [104, 7, 99]).params.hasArb = false :=
  ⟨step_of_stepped (by decide), by decide, by decide⟩
theorem witness_FaultsArePrecise : step State.reset = .next (State.reset.takeFault ⟨.unknownOpcode, none⟩) ∧ (State.reset.takeFault ⟨.unknownOpcode, none⟩).st = .faulted :=
  ⟨step_of_stepped (by decide), by decide⟩
theorem witness_straight_line_word : ((prog [104, 7, 99]).mem.read 0).toInt % 100 ≠ 5 ∧ ((prog [104, 7, 99]).mem.read 0).toInt % 100 ≠ 6 := by decide

/-- A loaded program meets the invariant. -/
theorem witness_EveryStepKeepsTheInvariant : (prog [104, 7, 99]).Inv :=
  ⟨by decide, by decide, ⟨fun _ => ⟨rfl, rfl, rfl, rfl⟩, fun h => by cases h⟩, fun _ => rfl⟩
theorem witness_EveryTransactionKeepsTheInvariant : transact 2 (prog [104, 7, 99]) .run = some ((((prog [104, 7, 99]).pushOut (v 7)).setIp 2).setSt .halted, .runResult .halted) := by decide
theorem witness_LoadSetsEveryPieceOfState : ([v 1, v 0].length ≤ addrMax + 1) ∧ [v 1, v 0][1]? = some (v 0) := by decide
theorem witness_PopOutputTakesTheOldest : (prog [99]).outq = [] ∧ ((prog [99]).pushOut (v 2)).outq = [v 2] := by decide
theorem witness_ReadMemReturnsTheRange : addrMax + 1 ≤ addrMax + 1 ∧ (0 : Nat) < 1 := ⟨le_refl _, by decide⟩

/-- A `RUN` that returns HALTED. -/
theorem witness_RunReturns_halted : RunReturns (prog [99]) ((prog [99]).setSt .halted) ∧ ((prog [99]).setSt .halted).st = .halted := ⟨⟨1, by decide⟩, rfl⟩

/-- A `RUN` that returns BLOCKED (vector IN9). -/
theorem witness_RunReturns_blocked : RunReturns (prog [3, 0, 99]) ((prog [3, 0, 99]).setSt .blocked) ∧ ((prog [3, 0, 99]).setSt .blocked).st = .blocked := ⟨⟨1, by decide⟩, rfl⟩
theorem witness_OnlyLoadLeavesAFault : ((prog [0]).takeFault ⟨.unknownOpcode, none⟩).st = .faulted ∧
    transact 0 ((prog [0]).takeFault ⟨.unknownOpcode, none⟩) .run = some ((prog [0]).takeFault ⟨.unknownOpcode, none⟩, .runResult .faulted) := by decide

end Sys2Proof.Tests
end

/-! ## What reads tell about a canonical memory, and about a program's image -/

namespace Sys2Proof.Machine

/-- Where addresses rise strictly, every listed cell is the one that is read at its address. -/
theorem Memory.read_of_mem {m : Memory} (h : m.Pairwise fun c d => c.1 < d.1) {c : Nat × I64} (hc : c ∈ m) :
    m.read c.1 = c.2 := by
  induction m with
  | nil => simp at hc
  | cons d m ih =>
    obtain ⟨hd, htail⟩ := List.pairwise_cons.1 h
    rw [Memory.read_cons]
    rcases List.mem_cons.1 hc with rfl | hc
    · exact if_pos rfl
    · rw [if_neg (hd c hc).ne]
      exact ih htail hc

/-- A cell that does not read 0 is listed. -/
theorem Memory.mem_of_read_ne_zero {m : Memory} {a : Nat} (h : m.read a ≠ I64.zero) : (a, m.read a) ∈ m := by
  induction m with
  | nil => exact absurd rfl h
  | cons d m ih =>
    rw [Memory.read_cons] at h ⊢
    split at h
    · next hd => simp [← hd]
    · next hd => simp [hd, ih h]

/-- The cells of a canonical memory are its non-zero reads (R43). -/
theorem Memory.mem_iff_read {m : Memory} (h : m.wf) {c : Nat × I64} :
    c ∈ m ↔ m.read c.1 = c.2 ∧ c.2 ≠ I64.zero := by
  constructor
  · exact fun hc => ⟨Memory.read_of_mem h.1 hc, (h.2 c hc).1⟩
  · rintro ⟨hread, hne⟩
    have := Memory.mem_of_read_ne_zero (hread ▸ hne)
    rwa [hread] at this

/-- Settles O2: canonical memories that read alike list the same cells, and their rising addresses fix the order. -/
theorem canonicalMemoryIsItsReads : Obligations.CanonicalMemoryIsItsReads := by
  intro m n hm hn hread
  have hirrefl : Std.Irrefl fun c d : Nat × I64 => c.1 < d.1 := ⟨fun c => lt_irrefl c.1⟩
  have hantisymm : Std.Antisymm fun c d : Nat × I64 => c.1 < d.1 := ⟨fun _ _ h h' => absurd h' h.asymm⟩
  exact hm.1.eq_of_mem_iff hn.1 fun c => by rw [Memory.mem_iff_read hm, Memory.mem_iff_read hn, hread]

/-- The image of a program placed at `a`: cell `a + i` reads element `i`, and 0 beyond the program (R48, R158). -/
theorem Memory.read_ofProgram (p : List I64) (a i : Nat) :
    (Memory.ofProgram a p).read (a + i) = (p[i]?).getD I64.zero := by
  induction p generalizing a i with
  | nil => rfl
  | cons v p ih =>
    have hbelow : (Memory.ofProgram (a + 1) p).read a = I64.zero :=
      Memory.read_of_not_listed fun c hc => by have := (Memory.ofProgram_addr hc).1; omega
    have habove (j : Nat) : (Memory.ofProgram (a + 1) p).read (a + (j + 1)) = (p[j]?).getD I64.zero := by
      rw [← ih (a + 1) j, Nat.add_right_comm, Nat.add_assoc]
    unfold Memory.ofProgram
    split
    · next hv =>
      cases i with
      | zero => simp [hbelow, hv]
      | succ j => simp [habove]
    · cases i with
      | zero => simp [Memory.read_cons]
      | succ j => simp [Memory.read_cons, habove]

end Sys2Proof.Machine

/-! ## What a decoded instruction says about its word -/

namespace Sys2Proof.Laws

/-- A word that decodes has five digits, and decodes to its row of the opcode table at its three modes (R62, R72). -/
theorem decode_ok {arb : Bool} {w : I64} {i : Instr} (h : decode arb w = .ok i) :
    ∃ n : Nat, w.toInt = n ∧ n ≤ 99999 ∧ ∃ row m1 m2 m3, opcodeRow arb (n % 100) = some row ∧
      modeOfDigit (n / 100 % 10) = some m1 ∧ modeOfDigit (n / 1000 % 10) = some m2 ∧
      modeOfDigit (n / 10000 % 10) = some m3 ∧ i = row m1 m2 m3 ∧ WellFormed i := by
  unfold decode at h
  split at h
  · cases h
  next hrange =>
  obtain ⟨hnonneg, hmax⟩ : 0 ≤ w.toInt ∧ w.toInt ≤ 99999 := by simpa using hrange
  rw [decodeDigits_eq] at h
  split at h
  · cases h
  next row hrow =>
  split at h
  case h_4 m1 m2 m3 h1 h2 h3 =>
    unfold checkWriteTarget at h
    split at h
    · next hwf =>
      cases h
      exact ⟨w.toInt.toNat, by omega, by omega, row, m1, m2, m3, hrow, h1, h2, h3, rfl, hwf⟩
    · cases h
  all_goals cases h

/-- The opcode of a decoded instruction is the two low-order digits of its word; 9 only with `HAS_ARB` (R62, R147). -/
theorem decode_opcode {arb : Bool} {w : I64} {i : Instr} (h : decode arb w = .ok i) :
    (i.opcode : Int) = w.toInt % 100 ∧ (i.opcode = 9 → arb = true) := by
  obtain ⟨n, hn, -, row, m1, m2, m3, hrow, -, -, -, rfl, -⟩ := decode_ok h
  obtain ⟨hop, -, -, -, harb⟩ := opcodeRow_eq_some hrow m1 m2 m3
  exact ⟨by omega, fun h9 => harb (hop ▸ h9)⟩

end Sys2Proof.Laws

/-! ## What one step can do -/

namespace Sys2Proof.Machine

/-- `Completes i s t`: what the instruction `i`, where it raises nothing, can make of the state `s`. One case per
kind of state change, with the opcodes it belongs to, the instruction's length, and the range of the addresses used. -/
inductive Completes (i : Instr) (s : State) : State → Prop
  /-- `ADD`, `MUL`, `LT`, `EQ`: one result stored (R100, R101, R130, R131). -/
  | stored (d : Nat) (v : I64) (hop : i.opcode = 1 ∨ i.opcode = 2 ∨ i.opcode = 7 ∨ i.opcode = 8) (hlen : i.len = 4)
      (hd : d ≤ addrMax) (hip : s.ip + 4 ≤ addrMax) : Completes i s ((s.writeCell d v).setIp (s.ip + 4))
  /-- `IN` with an input: the oldest one stored (R110). -/
  | received (d : Nat) (v : I64) (rest : List I64) (hop : i.opcode = 3) (hlen : i.len = 2) (hq : s.inq = v :: rest)
      (hd : d ≤ addrMax) (hip : s.ip + 2 ≤ addrMax) :
      Completes i s (((s.setInq rest).writeCell d v).setIp (s.ip + 2))
  /-- `IN` without one: the suspension (R111). -/
  | suspended (hop : i.opcode = 3) (hq : s.inq = []) : Completes i s (s.setSt .blocked)
  /-- `OUT` (R112). -/
  | sent (v : I64) (hop : i.opcode = 4) (hlen : i.len = 2) (hip : s.ip + 2 ≤ addrMax) :
      Completes i s ((s.pushOut v).setIp (s.ip + 2))
  /-- `JT` and `JF`, taken or not (R120 to R122). -/
  | jumped (g : Nat) (hop : i.opcode = 5 ∨ i.opcode = 6) (hg : g ≤ addrMax) : Completes i s (s.setIp g)
  /-- `HLT` (R140). -/
  | halted (hop : i.opcode = 99) : Completes i s (s.setSt .halted)
  /-- `ARB` (R146). -/
  | adjusted (r : I64) (hop : i.opcode = 9) (hlen : i.len = 2) (hip : s.ip + 2 ≤ addrMax) :
      Completes i s ((s.setRb r).setIp (s.ip + 2))

/-- A three-operand effect that answers a state has stored one result. -/
theorem completes_of_effectRRW {f : I64 → I64 → Except Raise I64} {m1 m2 m3 : Mode} {i : Instr} {s t : State}
    (hop : i.opcode = 1 ∨ i.opcode = 2 ∨ i.opcode = 7 ∨ i.opcode = 8) (hlen : i.len = 4)
    (h : effectRRW f m1 m2 m3 s = .ok t) : Completes i s t := by
  obtain ⟨a, b, d, v, -, -, hd, hip, -, rfl⟩ := effectRRW_ok.1 h
  exact .stored d v hop hlen (resolveWrite_le hd) hip

/-- A jump that answers a state has set `ip`, to its target or past itself. -/
theorem completes_of_effectRR {taken : I64 → Bool} {m1 m2 : Mode} {i : Instr} {s t : State}
    (hop : i.opcode = 5 ∨ i.opcode = 6) (h : effectRR taken m1 m2 s = .ok t) : Completes i s t := by
  obtain ⟨c, g, -, -, ⟨-, hg, rfl⟩ | ⟨-, hip, rfl⟩⟩ := effectRR_ok.1 h
  · exact .jumped _ hop (Int.toNat_le.2 hg.2)
  · exact .jumped _ hop hip

/-- An effect that raises nothing is one of the seven state changes. -/
theorem completes_of_effectOf {i : Instr} {s t : State} (h : effectOf i s = .ok t) : Completes i s t := by
  cases i with
  | add | mul | lt | eq => exact completes_of_effectRRW (by simp [Instr.opcode]) rfl h
  | jt | jf => exact completes_of_effectRR (by simp [Instr.opcode]) h
  | inp m1 m2 m3 =>
    obtain ⟨d, hd, hip, ⟨hq, rfl⟩ | ⟨v, rest, hq, rfl⟩⟩ := effectW_ok.1 h
    · exact .suspended rfl hq
    · exact .received d v rest rfl rfl hq (resolveWrite_le hd) hip
  | out m1 m2 m3 =>
    rw [effectOf, effectR_ok] at h
    obtain ⟨a, u, -, hip, hu, rfl⟩ := h
    cases hu
    exact .sent a rfl rfl hip
  | hlt m1 m2 m3 =>
    cases h
    exact .halted rfl
  | arb m1 m2 m3 =>
    rw [effectOf, effectR_ok] at h
    obtain ⟨a, u, -, hip, hu, rfl⟩ := h
    cases hr : checkResult (s.rb.toInt + a.toInt) with
    | error r => simp [hr, Except.map] at hu
    | ok r =>
      obtain rfl : s.setRb r = u := by simpa [hr, Except.map] using hu
      exact .adjusted r rfl rfl hip

/-- What a step that answers a next state did: the decoded instruction completed, or a fault was entered (R150, R190). -/
theorem step_cases {s t : State} (h : step s = .next t) :
    (∃ i, decode s.params.hasArb s.word = .ok i ∧ Completes i s t) ∨ ∃ r, t = s.takeFault r := by
  rcases (step_next (running_of_step h)).1 h with ⟨i, hi, hexec⟩ | ⟨r, -, rfl⟩
  · rcases exec_next.1 hexec with hok | ⟨r, -, rfl⟩
    · exact .inl ⟨i, hi, completes_of_effectOf hok⟩
    · exact .inr ⟨r, rfl⟩
  · exact .inr ⟨r, rfl⟩

/-! ### Which piece of state which opcode writes -/

section
variable {i : Instr} {s t : State}

theorem Completes.mem_eq_or_opcode (h : Completes i s t) : t.mem = s.mem ∨
    i.opcode = 1 ∨ i.opcode = 2 ∨ i.opcode = 3 ∨ i.opcode = 7 ∨ i.opcode = 8 := by
  cases h with
  | stored d v hop => right; omega
  | received d v rest hop => right; omega
  | suspended | sent | jumped | halted | adjusted => exact .inl rfl

theorem Completes.inq_eq_or_opcode (h : Completes i s t) :
    t.inq = s.inq ∨ i.opcode = 3 ∧ ∃ v, s.inq = v :: t.inq := by
  cases h with
  | received d v rest hop hlen hq => exact .inr ⟨hop, v, hq⟩
  | stored | suspended | sent | jumped | halted | adjusted => exact .inl rfl

theorem Completes.outq_eq_or_opcode (h : Completes i s t) :
    t.outq = s.outq ∨ i.opcode = 4 ∧ ∃ v, t.outq = s.outq ++ [v] := by
  cases h with
  | sent v hop => exact .inr ⟨hop, v, rfl⟩
  | stored | received | suspended | jumped | halted | adjusted => exact .inl rfl

theorem Completes.rb_eq_or_opcode (h : Completes i s t) : t.rb = s.rb ∨ i.opcode = 9 := by
  cases h with
  | adjusted r hop => exact .inr hop
  | stored | received | suspended | sent | jumped | halted => exact .inl rfl

theorem Completes.params_eq (h : Completes i s t) : t.params = s.params := by cases h <;> rfl

/-- An instruction that completes leaves the fault record alone and faults no running machine. -/
theorem Completes.keeps_record (h : Completes i s t) (hs : s.st = .running) : t.st ≠ .faulted ∧
    t.fcause = s.fcause ∧ t.fip = s.fip ∧ t.fword = s.fword ∧ t.fslot = s.fslot := by
  cases h <;> simp [hs]

/-- An instruction other than a jump that leaves the machine running advances `ip` by its length (R23, R156). -/
theorem Completes.ip_eq_add_len (h : Completes i s t) (ht : t.st = .running) (h5 : i.opcode ≠ 5)
    (h6 : i.opcode ≠ 6) : t.ip = s.ip + i.len := by
  cases h with
  | suspended | halted => cases ht
  | jumped g hop => omega
  | stored d v hop hlen | received d v rest hop hlen | sent v hop hlen | adjusted r hop hlen => simp [hlen]

end

/-- Settles O35: fault entry writes none of the spaces, and the opcode of a completed instruction is that of its word. -/
theorem onlyTheNamedOpcodesWriteEachSpace : Obligations.OnlyTheNamedOpcodesWriteEachSpace := by
  rintro s t op h rfl
  rcases step_cases h with ⟨i, hdecode, hi⟩ | ⟨r, rfl⟩
  · obtain ⟨hop, harb⟩ := Laws.decode_opcode hdecode
    unfold State.word at hop
    rw [← hop]
    refine ⟨hi.mem_eq_or_opcode.imp_right fun hw => by omega, ?_, ?_, ?_, hi.params_eq⟩
    · exact hi.inq_eq_or_opcode.imp_right fun ⟨h3, hv⟩ => ⟨by omega, hv⟩
    · exact hi.outq_eq_or_opcode.imp_right fun ⟨h4, hv⟩ => ⟨by omega, hv⟩
    · exact hi.rb_eq_or_opcode.imp_right fun h9 => ⟨by omega, harb h9⟩
  · exact ⟨.inl rfl, .inl rfl, .inl rfl, .inl rfl, rfl⟩

/-- Settles O36: only opcode 9 on a machine with `HAS_ARB` writes the relative base (O35). -/
theorem relativeBaseIsFixedWithoutArb : Obligations.RelativeBaseIsFixedWithoutArb := by
  intro s t harb h
  obtain ⟨-, -, -, hrb, hparams⟩ := onlyTheNamedOpcodesWriteEachSpace s t _ h rfl
  exact ⟨hrb.resolve_right fun ⟨_, harb'⟩ => by simp [harb] at harb', hparams⟩

/-- Settles O37: a step that goes on has completed its instruction, and only the two jumps do not advance by their
length. -/
theorem straightLineStepsAdvance : Obligations.StraightLineStepsAdvance := by
  intro s t h ht h5 h6
  rcases step_cases h with ⟨i, hdecode, hi⟩ | ⟨r, rfl⟩
  · have hop : (i.opcode : Int) = (s.mem.read s.ip).toInt % 100 := (Laws.decode_opcode hdecode).1
    have hip := hi.ip_eq_add_len ht (by omega) (by omega)
    have hlen : 1 ≤ i.len := by cases i <;> simp [Instr.len]
    exact ⟨by omega, i, hdecode, hip⟩
  · cases ht

/-! ### The invariant, one lemma per clause -/

section
variable {s t : State}

/-- Every write goes to an address, so a step keeps the canonical form of memory (R32, R43). -/
theorem step_keeps_mem_wf (hwf : s.mem.wf) (h : step s = .next t) : t.mem.wf := by
  rcases step_cases h with ⟨i, -, hi⟩ | ⟨r, rfl⟩
  · cases hi with
    | stored d v hop hlen hd => exact Memory.wf_write hwf hd v
    | received d v rest hop hlen hq hd => exact Memory.wf_write hwf hd v
    | suspended | sent | jumped | halted | adjusted => exact hwf
  · exact hwf

/-- Every value `ip` takes is range-checked first, so it stays an address (R22, R23). -/
theorem step_keeps_ip_le (hle : s.ip ≤ addrMax) (h : step s = .next t) : t.ip ≤ addrMax := by
  rcases step_cases h with ⟨i, -, hi⟩ | ⟨r, rfl⟩
  · cases hi with
    | stored d v hop hlen hd hip => exact hip
    | received d v rest hop hlen hq hd hip => exact hip
    | sent v hop hlen hip => exact hip
    | adjusted r hop hlen hip => exact hip
    | jumped g hop hg => exact hg
    | suspended | halted => exact hle
  · exact hle

/-- The record is written exactly where `st` becomes `FAULTED` (R26, R27, R190). -/
theorem step_keeps_recordOk (hrec : s.recordOk) (h : step s = .next t) : t.recordOk := by
  have hs := running_of_step h
  rcases step_cases h with ⟨i, -, hi⟩ | ⟨r, rfl⟩
  · obtain ⟨hst, hcause, hip, hword, hslot⟩ := hi.keeps_record hs
    refine ⟨fun _ => ?_, fun hf => absurd hf hst⟩
    rw [hcause, hip, hword, hslot]
    exact hrec.1 (by simp [hs])
  · exact ⟨fun hf => absurd rfl hf, fun _ => ⟨by simp, rfl, rfl⟩⟩

end

/-- Settles O39: clause by clause; the relative base by O36. -/
theorem everyStepKeepsTheInvariant : Obligations.EveryStepKeepsTheInvariant := by
  intro s t hinv h
  obtain ⟨-, -, -, -, hparams⟩ := onlyTheNamedOpcodesWriteEachSpace s t _ h rfl
  refine ⟨step_keeps_mem_wf hinv.mem h, step_keeps_ip_le hinv.ip h, step_keeps_recordOk hinv.record h, fun harb => ?_⟩
  have harb' : s.params.hasArb = false := hparams ▸ harb
  rw [(relativeBaseIsFixedWithoutArb s t harb' h).1, hinv.rb harb']

/-- The state after `LOAD` of a program that fits meets the invariant, whatever the state before (R35, R211). -/
theorem load_inv (s : State) {p : List I64} (hp : p.length ≤ addrMax + 1) : (s.load p).Inv where
  mem := Memory.wf_ofProgram (by omega)
  ip := Nat.zero_le _
  record := ⟨fun _ => ⟨rfl, rfl, rfl, rfl⟩, fun hf => by simp at hf⟩
  rb _ := rfl

/-- Settles O40: reset is `LOAD` of the empty program. -/
theorem resetMeetsTheInvariant : Obligations.ResetMeetsTheInvariant := load_inv State.reset (p := []) (Nat.zero_le _)

/-! ## The host's transactions -/

/-- An allowed `LOAD` answers the loaded state. -/
theorem transact_load (fuel : Nat) (s : State) {p : List I64} (hp : p.length ≤ addrMax + 1) :
    transact fuel s (.load p) = some (s.load p, .done) := by
  simp [transact, Transaction.allowed, hp]

/-- A transaction that is answered was allowed (R157). -/
theorem allowed_of_transact {fuel : Nat} {s : State} {x : Transaction} {a : State × Reply}
    (h : transact fuel s x = some a) : x.allowed = true := by
  by_contra hx
  simp [transact, hx] at h

/-- `RUN` on a faulted machine does nothing (R155). -/
theorem run_of_faulted {s : State} (hs : s.st = .faulted) (fuel : Nat) : run fuel s = some s := by
  have henter : s.enterRun = s := by simp [State.enterRun, hs]
  rw [run, henter, runLoop_stopped (by simp [hs])]

/-- `POP_OUTPUT` changes the output queue only (R161). -/
theorem popOutput_eq_setOutq {s t : State} {r : Reply} (h : popOutput s = (t, r)) : ∃ q, t = s.setOutq q := by
  unfold popOutput at h
  split at h
  · cases h
    exact ⟨s.outq, rfl⟩
  · cases h
    exact ⟨_, rfl⟩

/-- Settles O42: the cells are those of the program's image, every other piece is `LOAD`'s own. -/
theorem loadSetsEveryPieceOfState : Obligations.LoadSetsEveryPieceOfState := by
  refine ⟨fun s p fuel hp => ⟨s.load p, transact_load fuel s hp, fun a v hv => ?_, fun a ha => ?_,
    rfl, rfl, rfl, rfl, rfl, rfl, rfl, rfl, rfl, rfl⟩, rfl⟩
  · simpa [hv] using Memory.read_ofProgram p 0 a
  · simpa [List.getElem?_eq_none ha] using Memory.read_ofProgram p 0 a

/-- Settles O53: of the transactions other than `LOAD`, `RUN` does not step a faulted machine and the others touch at
most a queue. -/
theorem onlyLoadLeavesAFault : Obligations.OnlyLoadLeavesAFault := by
  intro fuel s t x r hs h
  have hallowed := allowed_of_transact h
  rw [transact.eq_def, if_pos hallowed] at h
  cases x with
  | load p => exact .inl ⟨p, rfl⟩
  | pushInput v =>
    cases h
    exact .inr rfl
  | run =>
    rw [run_of_faulted hs] at h
    cases h
    exact .inr rfl
  | popOutput =>
    obtain ⟨q, rfl⟩ := popOutput_eq_setOutq (Option.some.inj h)
    exact .inr rfl
  | readMem a c =>
    cases h
    exact .inr rfl

end Sys2Proof.Machine

/-! ## What a memory write changes -/

namespace Sys2Proof.Machine

/-- What a read sees after a write: the value at the written address, at any other what it saw before (R42). Writing 0
only takes the cell off the list, any other value then lists it anew (R43). -/
theorem Memory.read_write (m : Memory) (a : Nat) (v : I64) (b : Nat) :
    (m.write a v).read b = if b = a then v else m.read b := by
  unfold Memory.write
  split
  · next hv =>
    split
    · next hb => rw [hb, hv, Memory.read_erase_same]
    · next hb => exact Memory.read_erase_other m hb
  · rw [Memory.read_insert _ a v (Memory.erase_not_listed m a)]
    split
    · rfl
    · next hb => exact Memory.read_erase_other m hb

/-- Settles O1: the two cases of `Memory.read_write`. -/
theorem writeChangesOneCell : Obligations.WriteChangesOneCell := fun m a v =>
  ⟨by rw [Memory.read_write, if_pos rfl], fun b hb => by rw [Memory.read_write, if_neg hb]⟩

end Sys2Proof.Machine

/-! ## The decoder: what it answers by the decimal fields of a word -/

namespace Sys2Proof.Laws

/-- Every opcode is one of the ten of the table (R64, R146). -/
theorem opcode_known (i : Instr) : (1 ≤ i.opcode ∧ i.opcode ≤ 8) ∨ i.opcode = 99 ∨ i.opcode = 9 := by
  cases i <;> simp [Instr.opcode]

/-- A mode is determined by its digit (R67). -/
theorem digit_eq_one {m : Mode} : m.digit = 1 ↔ m = .immediate := by cases m <;> decide

/-- A legal mode digit is the digit of a mode (R67, R69). -/
theorem exists_mode_of_le {d : Nat} (h : d ≤ 2) : ∃ m : Mode, d = m.digit := by
  obtain ⟨m, hm⟩ := Option.ne_none_iff_exists'.1 (mt modeOfDigit_eq_none.1 (not_lt.2 h))
  exact ⟨m, modeOfDigit_eq_some.1 hm⟩

/-- The decimal fields of the word of an instruction (R62). -/
theorem encodeNat_fields (i : Instr) :
    encodeNat i ≤ 99999 ∧ encodeNat i % 100 = i.opcode ∧ encodeNat i / 100 % 10 = (i.mode .p1).digit ∧
      encodeNat i / 1000 % 10 = (i.mode .p2).digit ∧ encodeNat i / 10000 % 10 = (i.mode .p3).digit := by
  have hop : i.opcode < 100 := by
    have := opcode_known i
    omega
  have h1 := modeDigit_le (i.mode .p1)
  have h2 := modeDigit_le (i.mode .p2)
  have h3 := modeDigit_le (i.mode .p3)
  unfold encodeNat
  omega

/-- Every instruction the machine has is made by the row of its opcode from its modes (R64, R147). -/
theorem opcodeRow_opcode {arb : Bool} {i : Instr} (h : i.opcode = 9 → arb = true) :
    ∃ row, opcodeRow arb i.opcode = some row ∧ row (i.mode .p1) (i.mode .p2) (i.mode .p3) = i := by
  cases i with
  | arb m1 m2 m3 =>
    obtain rfl := h rfl
    exact ⟨_, rfl, rfl⟩
  | _ => exact ⟨_, rfl, rfl⟩

/-! ### The write target (R66, R71) -/

theorem writeSlot_eq_p3 {i : Instr} :
    i.writeSlot = some .p3 ↔ i.opcode = 1 ∨ i.opcode = 2 ∨ i.opcode = 7 ∨ i.opcode = 8 := by
  cases i <;> simp [Instr.writeSlot, Instr.opcode]

theorem writeSlot_eq_p1 {i : Instr} : i.writeSlot = some .p1 ↔ i.opcode = 3 := by
  cases i <;> simp [Instr.writeSlot, Instr.opcode]

theorem writeSlot_ne_p2 (i : Instr) : i.writeSlot ≠ some .p2 := by cases i <;> simp [Instr.writeSlot]

theorem wellFormed_iff {i : Instr} : WellFormed i ↔ ∀ k, i.writeSlot = some k → i.mode k ≠ .immediate := by
  unfold WellFormed Instr.wellFormed
  cases i.writeSlot <;> simp

theorem checkWriteTarget_wellFormed {i : Instr} (h : WellFormed i) : checkWriteTarget i = .ok i := if_pos h

theorem checkWriteTarget_immediate {i : Instr} {k : Slot} (hk : i.writeSlot = some k) (hm : i.mode k = .immediate) :
    checkWriteTarget i = .error ⟨.immediateWriteTarget, some k⟩ := by
  have hwf : ¬ WellFormed i := fun h => wellFormed_iff.1 h k hk hm
  rw [checkWriteTarget, if_neg hwf, hk]

/-! ### The checks, in the order of R72 -/

section
variable {arb : Bool} {w : I64} {n : Nat} {row : Mode → Mode → Mode → Instr}

theorem decode_outOfRange (h : ¬ (0 ≤ w.toInt ∧ w.toInt ≤ 99999)) :
    decode arb w = .error ⟨.instructionWordOutOfRange, none⟩ :=
  if_pos (by unfold maxInstructionWord; omega)

theorem decode_inRange (hw : w.toInt = n) (hn : n ≤ 99999) : decode arb w = decodeDigits arb n := by
  rw [decode, if_neg (by unfold maxInstructionWord; omega), hw, Int.toNat_natCast]

theorem decodeDigits_unknownOpcode (h : opcodeRow arb (n % 100) = none) :
    decodeDigits arb n = .error ⟨.unknownOpcode, none⟩ := by
  rw [decodeDigits_eq, h]

theorem decodeDigits_badMode1 (hrow : opcodeRow arb (n % 100) = some row) (h1 : 2 < n / 100 % 10) :
    decodeDigits arb n = .error ⟨.unknownParameterMode, some .p1⟩ := by
  simp only [decodeDigits_eq, hrow, modeOfDigit_eq_none.2 h1]

theorem decodeDigits_badMode2 {m1 : Mode} (hrow : opcodeRow arb (n % 100) = some row) (h1 : n / 100 % 10 = m1.digit)
    (h2 : 2 < n / 1000 % 10) : decodeDigits arb n = .error ⟨.unknownParameterMode, some .p2⟩ := by
  simp only [decodeDigits_eq, hrow, modeOfDigit_eq_some.2 h1, modeOfDigit_eq_none.2 h2]

theorem decodeDigits_badMode3 {m1 m2 : Mode} (hrow : opcodeRow arb (n % 100) = some row)
    (h1 : n / 100 % 10 = m1.digit) (h2 : n / 1000 % 10 = m2.digit) (h3 : 2 < n / 10000 % 10) :
    decodeDigits arb n = .error ⟨.unknownParameterMode, some .p3⟩ := by
  simp only [decodeDigits_eq, hrow, modeOfDigit_eq_some.2 h1, modeOfDigit_eq_some.2 h2, modeOfDigit_eq_none.2 h3]

theorem decodeDigits_modes {m1 m2 m3 : Mode} (hrow : opcodeRow arb (n % 100) = some row)
    (h1 : n / 100 % 10 = m1.digit) (h2 : n / 1000 % 10 = m2.digit) (h3 : n / 10000 % 10 = m3.digit) :
    decodeDigits arb n = checkWriteTarget (row m1 m2 m3) := by
  simp only [decodeDigits_eq, hrow, modeOfDigit_eq_some.2 h1, modeOfDigit_eq_some.2 h2, modeOfDigit_eq_some.2 h3]

end

/-! ### Decoding and encoding are inverse -/

/-- Settles O3: the word of `i` has the fields of `i`, so the decoder takes the row and the modes of `i`, and finds
the write target legal. -/
theorem decodeOfEncodeIsTheInstruction : Obligations.DecodeOfEncodeIsTheInstruction := by
  intro arb i hwf harb
  obtain ⟨hmax, hop, h1, h2, h3⟩ := encodeNat_fields i
  obtain ⟨row, hrow, hi⟩ := opcodeRow_opcode harb
  rw [decode_inRange (encode_toInt i) hmax, decodeDigits_modes (hop.symm ▸ hrow) h1 h2 h3, hi,
    checkWriteTarget_wellFormed hwf]

/-- Settles O4: the row and the modes that `decode_ok` gives are the fields of the word. -/
theorem decodedWordIsTheEncoding : Obligations.DecodedWordIsTheEncoding := by
  intro arb w i h
  obtain ⟨n, hw, hn, row, m1, m2, m3, hrow, h1, h2, h3, rfl, hwf⟩ := decode_ok h
  obtain ⟨hop, hm1, hm2, hm3, harb⟩ := opcodeRow_eq_some hrow m1 m2 m3
  have hnat : encodeNat (row m1 m2 m3) = n := by
    rw [modeOfDigit_eq_some] at h1 h2 h3
    rw [encodeNat, hop, hm1, hm2, hm3]
    omega
  exact ⟨I64.ext (by rw [encode_toInt, hnat, hw]), hwf, fun h9 => harb (hop ▸ h9)⟩

/-- What decodes, and to what. -/
theorem decode_eq_ok {arb : Bool} {w : I64} {i : Instr} :
    decode arb w = .ok i ↔ encode i = w ∧ WellFormed i ∧ (i.opcode = 9 → arb = true) := by
  refine ⟨decodedWordIsTheEncoding arb w i, ?_⟩
  rintro ⟨rfl, hwf, harb⟩
  exact decodeOfEncodeIsTheInstruction arb i hwf harb

/-- Settles O5: the digits by arithmetic; those of a word that decodes are those of the word of its instruction. -/
theorem wordIsItsDecimalFields : Obligations.WordIsItsDecimalFields := by
  refine ⟨fun n hn => ?_, fun arb w i h => ?_⟩
  · simp only [digit, Nat.reducePow, true_and]
    omega
  · obtain ⟨rfl, -, -⟩ := decode_eq_ok.1 h
    obtain ⟨-, hop, h1, h2, h3⟩ := encodeNat_fields i
    rw [encode_toInt]
    refine ⟨by omega, by omega, by omega, by omega, ?_⟩
    simp [encodeNat]

/-! ### The whole decoder -/

/-- A word whose fields are all known decodes to the instruction of those fields, if its write target is legal. -/
theorem decode_fields {arb : Bool} {w : I64} {n : Nat} (hw : w.toInt = n) (hn : n ≤ 99999)
    (hop : opcodeRow arb (n % 100) ≠ none) (h1 : n / 100 % 10 ≤ 2) (h2 : n / 1000 % 10 ≤ 2)
    (h3 : n / 10000 % 10 ≤ 2) :
    ∃ i, decode arb w = checkWriteTarget i ∧ i.opcode = n % 100 ∧ (i.mode .p1).digit = n / 100 % 10 ∧
      (i.mode .p2).digit = n / 1000 % 10 ∧ (i.mode .p3).digit = n / 10000 % 10 := by
  obtain ⟨row, hrow⟩ := Option.ne_none_iff_exists'.1 hop
  obtain ⟨m1, h1⟩ := exists_mode_of_le h1
  obtain ⟨m2, h2⟩ := exists_mode_of_le h2
  obtain ⟨m3, h3⟩ := exists_mode_of_le h3
  obtain ⟨hop, hm1, hm2, hm3, -⟩ := opcodeRow_eq_some hrow m1 m2 m3
  refine ⟨row m1 m2 m3, ?_, hop, by rw [hm1, h1], by rw [hm2, h2], by rw [hm3, h3]⟩
  rw [decode_inRange hw hn, decodeDigits_modes hrow h1 h2 h3]

/-- An instruction whose fields name no Immediate write target is well-formed (R66, R71). -/
theorem wellFormed_of_fields {i : Instr}
    (h3 : ¬ ((i.opcode = 1 ∨ i.opcode = 2 ∨ i.opcode = 7 ∨ i.opcode = 8) ∧ (i.mode .p3).digit = 1))
    (h1 : ¬ (i.opcode = 3 ∧ (i.mode .p1).digit = 1)) : WellFormed i := by
  refine wellFormed_iff.2 fun k hk hm => ?_
  cases k with
  | p1 => exact h1 ⟨writeSlot_eq_p1.1 hk, digit_eq_one.2 hm⟩
  | p2 => exact writeSlot_ne_p2 i hk
  | p3 => exact h3 ⟨writeSlot_eq_p3.1 hk, digit_eq_one.2 hm⟩

/-- Settles O8: out of range at once; in range, one lemma per check, and the last three clauses by `decode_fields` from
the instruction's write slot. -/
theorem decoderChecksInOrder : Obligations.DecoderChecksInOrder := by
  rintro arb w _ _ _ _ rfl rfl rfl rfl inRange known badTarget3 badTarget1
  by_cases hrange : inRange
  case neg => exact ⟨fun _ => decode_outOfRange hrange, by simp only [hrange, false_implies, and_self]⟩
  obtain ⟨n, hw⟩ := Int.eq_ofNat_of_zero_le hrange.1
  have hn : n ≤ 99999 := by
    have := hrange.2
    omega
  have hdecode : decode arb w = decodeDigits arb n := decode_inRange hw hn
  have hknown : opcodeRow arb (n % 100) ≠ none ↔ known := by
    rw [Ne, opcodeRow_eq_none, not_not]
    simp only [known, hw]
    norm_cast
  have hrow (h : known) : ∃ row, opcodeRow arb (n % 100) = some row :=
    Option.ne_none_iff_exists'.1 (hknown.2 h)
  refine ⟨fun h => absurd hrange h, fun _ hop => ?_, fun _ hop h1 => ?_, fun _ hop h1 h2 => ?_,
    fun _ hop h1 h2 h3 => ?_, fun _ h1 h2 h3 hbad => ?_, fun _ h1 h2 h3 hbad => ?_, fun _ hop h1 h2 h3 hok3 hok1 => ?_⟩
  · rw [hdecode, decodeDigits_unknownOpcode (not_not.1 (mt hknown.1 hop))]
  · obtain ⟨row, hrow⟩ := hrow hop
    rw [hdecode, decodeDigits_badMode1 hrow (by omega)]
  · obtain ⟨row, hrow⟩ := hrow hop
    obtain ⟨m1, hm1⟩ := exists_mode_of_le (d := n / 100 % 10) (by omega)
    rw [hdecode, decodeDigits_badMode2 hrow hm1 (by omega)]
  · obtain ⟨row, hrow⟩ := hrow hop
    obtain ⟨m1, hm1⟩ := exists_mode_of_le (d := n / 100 % 10) (by omega)
    obtain ⟨m2, hm2⟩ := exists_mode_of_le (d := n / 1000 % 10) (by omega)
    rw [hdecode, decodeDigits_badMode3 hrow hm1 hm2 (by omega)]
  · obtain ⟨hop, hd3⟩ := hbad
    obtain ⟨i, hi, hiop, -, -, hi3⟩ :=
      decode_fields hw hn (hknown.2 (.inl (by omega))) (by omega) (by omega) (by omega)
    rw [hi, checkWriteTarget_immediate (writeSlot_eq_p3.2 (by omega)) (digit_eq_one.1 (by omega))]
  · obtain ⟨hop, hd1⟩ := hbad
    obtain ⟨i, hi, hiop, hi1, -, -⟩ :=
      decode_fields hw hn (hknown.2 (.inl (by omega))) (by omega) (by omega) (by omega)
    rw [hi, checkWriteTarget_immediate (writeSlot_eq_p1.2 (by omega)) (digit_eq_one.1 (by omega))]
  · obtain ⟨i, hi, hiop, hi1, hi2, hi3⟩ := decode_fields hw hn (hknown.2 hop) (by omega) (by omega) (by omega)
    have hwf : WellFormed i := wellFormed_of_fields (fun h => hok3 (by omega)) (fun h => hok1 (by omega))
    exact ⟨i, by rw [hi, checkWriteTarget_wellFormed hwf], by omega, by omega, by omega, by omega⟩

/-! ### The nine opcodes, and the others -/

/-- Settles O6: an instruction is told by its opcode; a word that is one of the nine opcodes has Position in all three
modes, so no check refuses it. -/
theorem theNineOpcodesAndTheirLengths : Obligations.TheNineOpcodesAndTheirLengths := by
  refine ⟨fun w i h => ?_, fun op hop => ?_⟩
  · obtain ⟨hop, harb⟩ := decode_opcode h
    cases i with
    | arb => cases harb rfl
    | _ => simp [← hop, Instr.opcode, Instr.len]
  · obtain ⟨w, rfl⟩ : ∃ w : I64, w.toInt = op := ⟨⟨op, by omega⟩, rfl⟩
    have hrange : 0 ≤ w.toInt ∧ w.toInt ≤ 99999 := by omega
    have hknown : 1 ≤ w.toInt ∧ w.toInt ≤ 8 ∨ w.toInt = 99 ∨ w.toInt = 9 ∧ false = true := by omega
    obtain ⟨-, -, -, -, -, -, -, hok⟩ :=
      decoderChecksInOrder false w w.toInt 0 0 0 (by omega) (by omega) (by omega) (by omega)
    obtain ⟨i, hi, -⟩ := hok hrange hknown (by simp) (by simp) (by simp) (by simp) (by simp)
    exact ⟨w, i, rfl, hi⟩

/-- A five-digit word of an opcode that no machine has (R68). -/
theorem decode_unknownOpcode {arb : Bool} {w : I64} (h0 : 0 ≤ w.toInt) (hmax : w.toInt ≤ 99999)
    (hop : ¬ (1 ≤ w.toInt % 100 ∧ w.toInt % 100 ≤ 8 ∨ w.toInt % 100 = 99 ∨ w.toInt % 100 = 9 ∧ arb = true)) :
    decode arb w = .error ⟨.unknownOpcode, none⟩ :=
  (decoderChecksInOrder arb w _ _ _ _ rfl rfl rfl rfl).2.1 ⟨h0, hmax⟩ hop

/-! ### The legal words, listed -/

/-- The opcodes of the table, the optional 9 among them (R64, R146). -/
def tableOpcodes : List Nat := [1, 2, 3, 4, 5, 6, 7, 8, 9, 99]

/-- The three modes (R67). -/
def allModes : List Mode := [.position, .immediate, .relative]

/-- The instruction of an opcode and three modes, where the machine has the opcode. -/
def instrOfFields (arb : Bool) : Nat × Mode × Mode × Mode → Option Instr
  | (op, m1, m2, m3) => (opcodeRow arb op).map fun row => row m1 m2 m3

/-- The instructions that the words of a machine stand for: every opcode with every mode, but no Immediate write target
(R76, R147). -/
def legalInstrs (arb : Bool) : List Instr :=
  ((tableOpcodes ×ˢ allModes ×ˢ allModes ×ˢ allModes).filterMap (instrOfFields arb)).filter Instr.wellFormed

theorem mem_tableOpcodes (i : Instr) : i.opcode ∈ tableOpcodes := by
  cases i <;> simp [tableOpcodes, Instr.opcode]

theorem mem_allModes (m : Mode) : m ∈ allModes := by cases m <;> decide

/-- An instruction has the fields it is made of. -/
theorem instrOfFields_eq_some {arb : Bool} {x : Nat × Mode × Mode × Mode} {i : Instr} :
    instrOfFields arb x = some i ↔
      x = (i.opcode, i.mode .p1, i.mode .p2, i.mode .p3) ∧ (i.opcode = 9 → arb = true) := by
  obtain ⟨op, m1, m2, m3⟩ := x
  simp only [instrOfFields, Option.map_eq_some_iff]
  constructor
  · rintro ⟨row, hrow, rfl⟩
    obtain ⟨hop, h1, h2, h3, harb⟩ := opcodeRow_eq_some hrow m1 m2 m3
    rw [hop, h1, h2, h3]
    exact ⟨rfl, harb⟩
  · rintro ⟨hx, harb⟩
    cases hx
    exact opcodeRow_opcode harb

theorem mem_legalInstrs {arb : Bool} {i : Instr} :
    i ∈ legalInstrs arb ↔ WellFormed i ∧ (i.opcode = 9 → arb = true) := by
  simp only [legalInstrs, List.mem_filter, List.mem_filterMap, instrOfFields_eq_some]
  constructor
  · rintro ⟨⟨_, -, -, harb⟩, hwf⟩
    exact ⟨hwf, harb⟩
  · rintro ⟨hwf, harb⟩
    exact ⟨⟨_, by simp [mem_tableOpcodes, mem_allModes], rfl, harb⟩, hwf⟩

theorem nodup_legalInstrs (arb : Bool) : (legalInstrs arb).Nodup := by
  have hmodes : allModes.Nodup := by decide
  have hopcodes : tableOpcodes.Nodup := by decide
  refine .filter _ (.filterMap (fun x y i hx hy => ?_) (hopcodes.product (hmodes.product (hmodes.product hmodes))))
  rw [(instrOfFields_eq_some.1 hx).1, (instrOfFields_eq_some.1 hy).1]

/-- The words of the legal instructions are, once each, the words that decode: `encode` is injective on them, since
`decode` takes each word back. -/
theorem legalWords_spec (arb : Bool) :
    ((legalInstrs arb).map encode).Nodup ∧
      ∀ w, w ∈ (legalInstrs arb).map encode ↔ ∃ i, decode arb w = .ok i := by
  constructor
  · refine (nodup_legalInstrs arb).map_on fun i hi j hj hij => ?_
    obtain ⟨hwfi, harbi⟩ := mem_legalInstrs.1 hi
    obtain ⟨hwfj, harbj⟩ := mem_legalInstrs.1 hj
    have hdecode : decode arb (encode i) = .ok i := decodeOfEncodeIsTheInstruction arb i hwfi harbi
    rw [hij, decodeOfEncodeIsTheInstruction arb j hwfj harbj] at hdecode
    exact (Except.ok.inj hdecode).symm
  · intro w
    simp only [List.mem_map, mem_legalInstrs, decode_eq_ok]
    exact exists_congr fun i => and_comm

/-- Settles O9: the words of the legal instructions, counted. -/
theorem legalWordsAreCounted : Obligations.LegalWordsAreCounted := by
  obtain ⟨hnodup, hmem⟩ := legalWords_spec false
  obtain ⟨hnodupArb, hmemArb⟩ := legalWords_spec true
  exact ⟨⟨_, hnodup, by rw [List.length_map]; rfl, hmem⟩, ⟨_, hnodupArb, by rw [List.length_map]; rfl, hmemArb⟩⟩

/-- Settles O10: each word, run through the decoder. -/
theorem handWrittenWordsDecode : Obligations.HandWrittenWordsDecode :=
  ⟨rfl, rfl, rfl, rfl, rfl, rfl, rfl, rfl, rfl, rfl, rfl⟩

end Sys2Proof.Laws

/-! ## Unknown opcodes and unused modes on the machine -/

namespace Sys2Proof.Machine

open Sys2Proof.Laws

/-- Settles O7: the decoder's second check; the word 0 has opcode 0, which is unknown with and without `ARB`. -/
theorem unknownOpcodeIsRejected : Obligations.UnknownOpcodeIsRejected := by
  refine ⟨fun w h0 hmax hop => decode_unknownOpcode h0 hmax ?_, fun s hs hcell => ?_⟩
  · simp only [Bool.false_eq_true, and_false, or_false]
    omega
  · have hfetch : fetch s = .error ⟨.unknownOpcode, none⟩ := by
      rw [fetch, State.word, hcell]
      exact decode_unknownOpcode (by decide) (by decide) (by simp)
    rw [step_of_running hs, hfetch, ← hcell]
    rfl

/-- Settles O11: the effect of each of these instructions is that of its used slots. -/
theorem unusedModesHaveNoEffect : Obligations.UnusedModesHaveNoEffect := by
  intro s m1 m2 m3 n1 n2 n3
  simp only [exec_eq_settle, effectOf, and_self]

end Sys2Proof.Machine

/-! ## Operand and destination resolution -/

namespace Sys2Proof.Machine

section
variable {s : State} {k : Slot} {m : Mode}

/-! ### Which parameters resolve, mode by mode (R95) -/

theorem inMem_natCast {n : Nat} : InMem n ↔ n ≤ addrMax := by
  unfold InMem
  omega

/-- A parameter resolves when its cell exists and, in turn, the address it names (R95). -/
theorem resolvable_iff : Resolvable s k m ↔ s.ip + k.offset ≤ addrMax ∧ InMem (operandAddr s k m) :=
  and_congr_left' inMem_natCast

theorem resolvable_immediate : Resolvable s k .immediate ↔ s.ip + k.offset ≤ addrMax :=
  and_self_iff.trans inMem_natCast

/-- No value is above `ADDR_MAX`, so the value of a cell is an address when it is not negative. -/
theorem resolvable_position :
    Resolvable s k .position ↔ s.ip + k.offset ≤ addrMax ∧ 0 ≤ (paramValue s k).toInt :=
  resolvable_iff.trans (and_congr_right' (and_iff_left (paramValue s k).inRange.2))

theorem resolvable_relative :
    Resolvable s k .relative ↔ s.ip + k.offset ≤ addrMax ∧ InMem (s.rb.toInt + (paramValue s k).toInt) :=
  resolvable_iff

/-! ### What resolution answers -/

/-- A destination is the address that its parameter names, where that is one (R94). -/
theorem resolveWrite_eq_ok {d : Nat} (hm : m ≠ .immediate) :
    resolveWrite s k m = .ok d ↔ Resolvable s k m ∧ operandAddr s k m = d := by
  by_cases h : Resolvable s k m
  · obtain ⟨hnonneg, -⟩ := h.2
    rw [resolveWrite, effAddr_ok hm h, Except.ok.injEq, and_iff_right h]
    omega
  · simp [resolveWrite, effAddr_error hm h, h]

/-- A destination faults exactly where it does not resolve (R95). -/
theorem resolveWrite_eq_error {r : Raise} (hm : m ≠ .immediate) :
    resolveWrite s k m = .error r ↔ r = ⟨.addressOutOfRange, some k⟩ ∧ ¬ Resolvable s k m := by
  by_cases h : Resolvable s k m
  · rw [resolveWrite, effAddr_ok hm h]
    exact iff_of_false nofun fun ⟨_, hr⟩ => hr h
  · simp [resolveWrite, effAddr_error hm h, h, eq_comm]

/-- Position and Relative name the cell's value, plus `rb` in Relative (R91, R93). -/
theorem operandAddr_eq_ite (hm : m ≠ .immediate) : operandAddr s k m =
    if m = .position then (paramValue s k).toInt else s.rb.toInt + (paramValue s k).toInt := by
  cases m with
  | immediate => exact absurd rfl hm
  | position | relative => rfl

/-- With a relative base of 0 the two modes compute the same address, or raise the same fault (R97). -/
theorem effAddr_relative_of_rb_zero (h : s.rb = I64.zero) : effAddr s k .relative = effAddr s k .position := by
  simp only [effAddr, h, zero_toInt, zero_add]

end

/-- Settles O12: each clause is one side of when the parameter resolves in that mode. -/
theorem readParametersResolve : Obligations.ReadParametersResolve := by
  rintro s k _ rfl cellOk e bad
  refine ⟨fun h m => ?_, fun h => ?_, fun h hp => ?_, fun h hp => ?_, fun h h0 hmax => ?_, fun h he => ?_⟩
  · exact resolveRead_error fun hr => h (resolvable_iff.1 hr).1
  · exact resolveRead_ok (resolvable_immediate.2 h)
  · exact resolveRead_ok (resolvable_position.2 ⟨h, hp⟩)
  · exact resolveRead_error fun hr => not_le.2 hp (resolvable_position.1 hr).2
  · exact resolveRead_ok (resolvable_relative.2 ⟨h, h0, hmax⟩)
  · refine resolveRead_error fun hr => ?_
    obtain ⟨-, h0, hmax⟩ := resolvable_relative.1 hr
    exact he.elim (not_lt.2 h0) (not_lt.2 hmax)

/-- Settles O13: a destination answers the address it names or its one fault; a read of it resolves the same address;
and a decoded instruction is well-formed. -/
theorem writeParametersResolve : Obligations.WriteParametersResolve := by
  refine ⟨?_, fun arb w i k h hk => Laws.wellFormed_iff.1 (Laws.decode_eq_ok.1 h).2.1 k hk⟩
  rintro s k m hm _ rfl e
  have haddr : operandAddr s k m = e := operandAddr_eq_ite hm
  refine ⟨fun d => ?_, fun r => ?_, fun d hd => ?_⟩
  · rw [resolveWrite_eq_ok hm, resolvable_iff, haddr, and_assoc]
    refine and_congr_right' ⟨fun ⟨ha, he⟩ => ⟨he, ?_⟩, fun ⟨he, hd⟩ => ⟨?_, he⟩⟩
    · exact inMem_natCast.1 (he ▸ ha)
    · exact he ▸ inMem_natCast.2 hd
  · rw [resolveWrite_eq_error hm, resolvable_iff, haddr, not_and_or, not_and_or, not_le, not_le, not_le]
  · obtain ⟨hr, he⟩ := (resolveWrite_eq_ok hm).1 hd
    rw [resolveRead_ok hr, operandValue, he, Int.toNat_natCast]

/-- Settles O14: reads and writes in these modes go through `effAddr`. -/
theorem relativeAtBaseZeroIsPosition : Obligations.RelativeAtBaseZeroIsPosition := by
  intro s k h
  have haddr : effAddr s k .relative = effAddr s k .position := effAddr_relative_of_rb_zero h
  exact ⟨by simp only [resolveRead, haddr], haddr⟩

/-! ### The checks of the three-operand format, in the order of R189 -/

section
variable {f : I64 → I64 → Except Raise I64} {m1 m2 m3 : Mode} {s : State}

theorem effectRRW_of_not_resolvable_p1 (h1 : ¬ Resolvable s .p1 m1) :
    effectRRW f m1 m2 m3 s = .error ⟨.addressOutOfRange, some .p1⟩ := by
  rw [effectRRW, resolveRead_error h1, error_bind]

theorem effectRRW_of_not_resolvable_p2 (h1 : Resolvable s .p1 m1) (h2 : ¬ Resolvable s .p2 m2) :
    effectRRW f m1 m2 m3 s = .error ⟨.addressOutOfRange, some .p2⟩ := by
  rw [effectRRW, resolveRead_ok h1, ok_bind, resolveRead_error h2, error_bind]

theorem effectRRW_of_not_resolvable_p3 (h1 : Resolvable s .p1 m1) (h2 : Resolvable s .p2 m2) (hm3 : m3 ≠ .immediate)
    (h3 : ¬ Resolvable s .p3 m3) : effectRRW f m1 m2 m3 s = .error ⟨.addressOutOfRange, some .p3⟩ := by
  rw [effectRRW, resolveRead_ok h1, ok_bind, resolveRead_ok h2, ok_bind, (resolveWrite_eq_error hm3).2 ⟨rfl, h3⟩,
    error_bind]

/-- The advance is checked last, and before the result is computed. -/
theorem effectRRW_of_advance_error (h1 : Resolvable s .p1 m1) (h2 : Resolvable s .p2 m2) (hm3 : m3 ≠ .immediate)
    (h3 : Resolvable s .p3 m3) (hip : addrMax < s.ip + 4) :
    effectRRW f m1 m2 m3 s = .error ⟨.addressOutOfRange, none⟩ := by
  rw [effectRRW, resolveRead_ok h1, ok_bind, resolveRead_ok h2, ok_bind, resolveWrite, effAddr_ok hm3 h3, ok_bind,
    advance_error hip, error_bind]

/-- `ADD`, `MUL`, `LT` and `EQ` differ only in the result they compute (R65). -/
theorem effectOf_threeOperand {i : Instr}
    (h : i = .add m1 m2 m3 ∨ i = .mul m1 m2 m3 ∨ i = .lt m1 m2 m3 ∨ i = .eq m1 m2 m3) :
    ∃ f, effectOf i s = effectRRW f m1 m2 m3 s := by
  obtain rfl | rfl | rfl | rfl := h <;> exact ⟨_, rfl⟩

end

/-- Settles O26: the checks of the format raise the same faults whatever the result is. -/
theorem threeOperandFormsFaultInSlotOrder : Obligations.ThreeOperandFormsFaultInSlotOrder := by
  intro s m1 m2 m3 i hi hm3
  obtain ⟨f, hf⟩ := effectOf_threeOperand hi
  rw [exec_eq_settle, hf]
  refine ⟨fun h1 => ?_, fun h1 h2 => ?_, fun h1 h2 h3 => ?_, fun h1 h2 h3 hip => ?_⟩
  · rw [effectRRW_of_not_resolvable_p1 h1, settle_error]
  · rw [effectRRW_of_not_resolvable_p2 h1 h2, settle_error]
  · rw [effectRRW_of_not_resolvable_p3 h1 h2 hm3 h3, settle_error]
  · rw [effectRRW_of_advance_error h1 h2 hm3 h3 hip, settle_error]

end Sys2Proof.Machine

/-! ## Arithmetic -/

namespace Sys2Proof.Machine

/-! ### The formats with every address check passed: the result, or what it raises -/

/-- With the operand resolved and the advance in range, format R is left with what is done with the operand. -/
theorem effectR_of_resolved {use : I64 → State → Except Raise State} {m1 : Mode} {s : State} {a : I64}
    (ha : resolveRead s .p1 m1 = .ok a) (hip : s.ip + 2 ≤ addrMax) :
    effectR use m1 s = use a s >>= fun t => .ok (t.setIp (s.ip + 2)) := by
  rw [effectR, ha, ok_bind, advance_ok hip, ok_bind]
  rfl

section
variable {f : I64 → I64 → Except Raise I64} {m1 m2 m3 : Mode} {s : State} {a b : I64} {d : Nat}
  (ha : resolveRead s .p1 m1 = .ok a) (hb : resolveRead s .p2 m2 = .ok b) (hd : resolveWrite s .p3 m3 = .ok d)
  (hip : s.ip + 4 ≤ addrMax)
include ha hb hd hip

/-- With the parameters resolved and the advance in range, format RRW is left with its result. -/
theorem effectRRW_of_resolved :
    effectRRW f m1 m2 m3 s = f a b >>= fun v => .ok ((s.writeCell d v).setIp (s.ip + 4)) := by
  rw [effectRRW, ha, ok_bind, hb, ok_bind, hd, ok_bind, advance_ok hip, ok_bind]
  rfl

variable {i : Instr} (hi : effectOf i s = effectRRW f m1 m2 m3 s)
include hi

/-- A three-operand instruction whose result is a value stores it at the destination, and leaves every other cell and
all but `ip` as it was. -/
theorem exec_of_result_ok {v : I64} (hv : f a b = .ok v) :
    ∃ t, exec i s = .next t ∧ t.mem.read d = v ∧ (∀ x, x ≠ d → t.mem.read x = s.mem.read x) ∧
      t = { s with mem := t.mem, ip := s.ip + 4 } := by
  have hexec : exec i s = .next ((s.writeCell d v).setIp (s.ip + 4)) := by
    rw [exec_eq_settle, hi, effectRRW_of_resolved ha hb hd hip, hv, ok_bind, settle_ok]
  have hread (x : Nat) : ((s.writeCell d v).setIp (s.ip + 4)).mem.read x = if x = d then v else s.mem.read x :=
    Memory.read_write s.mem d v x
  exact ⟨_, hexec, by rw [hread, if_pos rfl], fun x hx => by rw [hread, if_neg hx], rfl⟩

/-- A three-operand instruction whose result raises enters that fault from the state it started in. -/
theorem exec_of_result_error {r : Raise} (hr : f a b = .error r) : exec i s = .next (s.takeFault r) := by
  rw [exec_eq_settle, hi, effectRRW_of_resolved ha hb hd hip, hr, error_bind, settle_error]

end

/-! ### ADD, MUL and ARB -/

/-- Settles O15: the range check answers the exact sum, which is stored. -/
theorem addStoresTheExactSum : Obligations.AddStoresTheExactSum := by
  intro s m1 m2 m3 a b d ha hb hd hip hsum
  obtain ⟨t, hexec, hread, hframe, hrest⟩ :=
    exec_of_result_ok ha hb hd hip (i := .add m1 m2 m3) rfl (checkResult_ok hsum)
  exact ⟨t, hexec, by rw [hread], hframe, hrest⟩

/-- Settles O16: the range check answers the exact product, which is stored. -/
theorem mulStoresTheExactProduct : Obligations.MulStoresTheExactProduct := by
  intro s m1 m2 m3 a b d ha hb hd hip hprod
  obtain ⟨t, hexec, hread, hframe, hrest⟩ :=
    exec_of_result_ok ha hb hd hip (i := .mul m1 m2 m3) rfl (checkResult_ok hprod)
  exact ⟨t, hexec, by rw [hread], hframe, hrest⟩

/-- `ARB` whose new base is out of range enters the fault from the state it started in (R146). -/
theorem exec_arb_of_overflow {m1 m2 m3 : Mode} {s : State} {a : I64} (ha : resolveRead s .p1 m1 = .ok a)
    (hip : s.ip + 2 ≤ addrMax) (hbase : ¬ InI64 (s.rb.toInt + a.toInt)) :
    exec (.arb m1 m2 m3) s = .next (s.takeFault ⟨.arithmeticOverflow, none⟩) := by
  rw [exec_eq_settle, effectOf, effectR_of_resolved ha hip, checkResult_error hbase]
  rfl

/-- Settles O27: the range check of each result raises the fault, after every address check has passed. -/
theorem overflowFaultsAndWritesNothing : Obligations.OverflowFaultsAndWritesNothing := by
  intro s m1 m2 m3 a b d ha
  refine ⟨fun hb hd hip hsum => ?_, fun hb hd hip hprod => ?_, fun hip hbase => exec_arb_of_overflow ha hip hbase⟩
  · exact exec_of_result_error ha hb hd hip (i := .add m1 m2 m3) rfl (checkResult_error hsum)
  · exact exec_of_result_error ha hb hd hip (i := .mul m1 m2 m3) rfl (checkResult_error hprod)

end Sys2Proof.Machine

/-! ## Runs as sequences of steps -/

namespace Sys2Proof.Machine

/-- `t` is reached from `s` by zero or more steps, each answering a next state (R152). -/
def Steps : State → State → Prop := Relation.ReflTransGen fun s t => step s = .next t

section
variable {s t u : State}

/-- The step is a function, so one of two executions from a state goes on where the other is. -/
theorem Steps.total (ht : Steps s t) (hu : Steps s u) : Steps t u ∨ Steps u t :=
  Relation.ReflTransGen.total_of_right_unique (fun _ _ _ h h' => Host.Outcome.next.inj (h.symm.trans h')) ht hu

/-- No step leads out of a state that is not `RUNNING` (R150). -/
theorem Steps.eq_of_stopped (hs : s.st ≠ .running) (h : Steps s t) : s = t := by
  rcases h.cases_head with heq | ⟨u, hstep, -⟩
  · exact heq
  · exact absurd (running_of_step hstep) hs

/-- An execution that passes through `t` and stops at `u` is one from `t` on. -/
theorem Steps.iff_of_stopped (h : Steps s t) (hu : u.st ≠ .running) : Steps t u ↔ Steps s u := by
  refine ⟨h.trans, fun hsu => (h.total hsu).elim id fun hut => ?_⟩
  rw [hut.eq_of_stopped hu]
  exact .refl

/-- What the loop returns is where the steps stop. -/
theorem exists_runLoop_iff : (∃ n, runLoop n s = some t) ↔ Steps s t ∧ t.st ≠ .running := by
  constructor
  · rintro ⟨n, h⟩
    induction n generalizing s with
    | zero =>
      rcases runLoop_cases h with ⟨hs, rfl⟩ | ⟨k, u, hk, -, -⟩
      · exact ⟨.refl, hs⟩
      · cases hk
    | succ n ih =>
      rcases runLoop_cases h with ⟨hs, rfl⟩ | ⟨k, u, hk, hstep, hloop⟩
      · exact ⟨.refl, hs⟩
      · cases hk
        obtain ⟨hut, ht⟩ := ih hloop
        exact ⟨hut.head hstep, ht⟩
  · rintro ⟨h, ht⟩
    induction h using Relation.ReflTransGen.head_induction_on with
    | refl => exact ⟨0, runLoop_stopped ht 0⟩
    | head hstep _ ih =>
      obtain ⟨n, hn⟩ := ih
      exact ⟨n + 1, (runLoop_succ hstep n).trans hn⟩

/-- A `RUN` returns where the steps from its entry state stop (R152). -/
theorem runReturns_iff : RunReturns s t ↔ Steps s.enterRun t ∧ t.st ≠ .running := exists_runLoop_iff

/-- `RUN` resumes, faults or leaves the machine, and never enters its loop suspended (R152 to R155). -/
theorem State.enterRun_st_ne_blocked (s : State) : s.enterRun.st ≠ .blocked := by
  cases h : s.st <;> simp [State.enterRun, h]

end

/-! ### Suspension -/

section
variable {s t : State}

/-- A step suspends only at a word of opcode 3 with no input left, and changes nothing but `st` (R111, R117). -/
theorem step_blocked (h : step s = .next t) (ht : t.st = .blocked) :
    t = s.setSt .blocked ∧ s.word.toInt % 100 = 3 ∧ s.inq = [] := by
  have hs := running_of_step h
  rcases step_cases h with ⟨i, hdecode, hi⟩ | ⟨r, rfl⟩
  · cases hi with
    | suspended hop hq =>
      have hword := (Laws.decode_opcode hdecode).1
      exact ⟨rfl, by omega, hq⟩
    | halted => cases ht
    | stored | received | sent | jumped | adjusted => simp [hs] at ht
  · cases ht

/-- A `RUN` that returns `BLOCKED` ends in a step that suspends. -/
theorem RunReturns.exists_blocking_step (h : RunReturns s t) (ht : t.st = .blocked) :
    ∃ p, Steps s.enterRun p ∧ step p = .next t := by
  rcases (runReturns_iff.1 h).1.cases_tail with heq | hlast
  · exact absurd ht (heq ▸ s.enterRun_st_ne_blocked)
  · exact hlast

/-- The next `RUN` resumes at the step that suspended (R153). -/
theorem enterRun_of_blocking_step {p : State} (h : step p = .next t) (ht : t.st = .blocked) : t.enterRun = p := by
  obtain ⟨rfl, -, -⟩ := step_blocked h ht
  have hp := running_of_step h
  cases p
  cases hp
  rfl

end

/-- Settles O50: the last step of the `RUN` suspended. -/
theorem runBlocksOnlyAtAnInput : Obligations.RunBlocksOnlyAtAnInput := by
  intro s t h ht
  obtain ⟨p, -, hstep⟩ := h.exists_blocking_step ht
  obtain ⟨rfl, hword, hq⟩ := step_blocked hstep ht
  exact ⟨hword, hq⟩

/-- Settles O49: the resumed `RUN` takes the suspending step again. -/
theorem blockedRunWithoutInputChangesNothing : Obligations.BlockedRunWithoutInputChangesNothing := by
  intro s t h ht
  obtain ⟨p, -, hstep⟩ := h.exists_blocking_step ht
  rw [runReturns_iff, enterRun_of_blocking_step hstep ht]
  exact ⟨.single hstep, by simp [ht]⟩

/-! ### The order of the queues -/

section
variable {s t : State}

/-- One step only appends to the outputs and only takes from the front of the inputs (R112, R113). -/
theorem step_keeps_queue_order (h : step s = .next t) : s.outq <+: t.outq ∧ t.inq <:+ s.inq := by
  obtain ⟨-, hin, hout, -, -⟩ := onlyTheNamedOpcodesWriteEachSpace s t _ h rfl
  constructor
  · rcases hout with heq | ⟨-, v, hv⟩
    · rw [heq]
    · exact ⟨[v], hv.symm⟩
  · rcases hin with heq | ⟨-, v, hv⟩
    · rw [heq]
    · exact ⟨[v], hv.symm⟩

theorem Steps.keeps_queue_order (h : Steps s t) : s.outq <+: t.outq ∧ t.inq <:+ s.inq := by
  induction h with
  | refl => exact ⟨⟨[], List.append_nil _⟩, ⟨[], rfl⟩⟩
  | tail _ hstep ih =>
    obtain ⟨hout, hin⟩ := step_keeps_queue_order hstep
    exact ⟨ih.1.trans hout, hin.trans ih.2⟩

/-- Entering a `RUN` touches no queue. -/
theorem State.enterRun_queues (s : State) : s.enterRun.outq = s.outq ∧ s.enterRun.inq = s.inq := by
  unfold State.enterRun
  split <;> exact ⟨rfl, rfl⟩

end

/-- Settles O52: the order is kept by every step, so by every execution. -/
theorem runKeepsTheQueuesInOrder : Obligations.RunKeepsTheQueuesInOrder := by
  intro s t h
  obtain ⟨⟨new, hnew⟩, ⟨taken, htaken⟩⟩ := (runReturns_iff.1 h).1.keeps_queue_order
  obtain ⟨hout, hin⟩ := s.enterRun_queues
  exact ⟨⟨new, by rw [← hout, hnew]⟩, ⟨taken, by rw [← hin, htaken]⟩⟩

/-! ### Earlier outputs and later inputs -/

/-- The state with the values `q` put before its outputs and the values `r` put after its inputs. -/
def State.extendQueues (q r : List I64) (s : State) : State := { s with outq := q ++ s.outq, inq := s.inq ++ r }

section
variable {q r : List I64} {s t : State} {m1 m2 m3 : Mode}

@[simp] theorem extendQueues_ip : (s.extendQueues q r).ip = s.ip := rfl
@[simp] theorem extendQueues_inq : (s.extendQueues q r).inq = s.inq ++ r := rfl

theorem resolveRead_extendQueues (k : Slot) (m : Mode) :
    resolveRead (s.extendQueues q r) k m = resolveRead s k m := by cases m <;> rfl

theorem resolveWrite_extendQueues (k : Slot) (m : Mode) :
    resolveWrite (s.extendQueues q r) k m = resolveWrite s k m := by cases m <;> rfl

theorem advance_extendQueues (len : Nat) : advance (s.extendQueues q r) len = advance s len := rfl

theorem jumpNext_extendQueues (taken : Bool) (target : I64) :
    jumpNext (s.extendQueues q r) taken target = jumpNext s taken target := rfl

theorem effectRRW_extendQueues {f : I64 → I64 → Except Raise I64} :
    effectRRW f m1 m2 m3 (s.extendQueues q r) = State.extendQueues q r <$> effectRRW f m1 m2 m3 s := by
  simp only [effectRRW, map_bind, map_pure, resolveRead_extendQueues, resolveWrite_extendQueues, advance_extendQueues]
  rfl

theorem effectRR_extendQueues {taken : I64 → Bool} :
    effectRR taken m1 m2 (s.extendQueues q r) = State.extendQueues q r <$> effectRR taken m1 m2 s := by
  simp only [effectRR, map_bind, map_pure, resolveRead_extendQueues, jumpNext_extendQueues]
  rfl

theorem effectR_extendQueues {use : I64 → State → Except Raise State}
    (huse : ∀ a, use a (s.extendQueues q r) = State.extendQueues q r <$> use a s) :
    effectR use m1 (s.extendQueues q r) = State.extendQueues q r <$> effectR use m1 s := by
  simp only [effectR, map_bind, map_pure, resolveRead_extendQueues, advance_extendQueues, huse, bind_map_left]
  rfl

/-- `IN` raises the same faults whatever the queues hold (D26). -/
theorem effectW_error_extendQueues {e : Raise} (h : effectW m1 s = .error e) :
    effectW m1 (s.extendQueues q r) = .error e := by
  simp only [effectW, bind_error, pure_eq_ok, reduceCtorEq, and_false, exists_false, or_false] at h ⊢
  simpa only [resolveWrite_extendQueues, advance_extendQueues] using h

/-- `IN` that does not suspend, or that is given no further input, completes as before. -/
theorem effectW_ok_extendQueues (h : effectW m1 s = .ok t) (ht : t.st = .blocked → r = []) :
    effectW m1 (s.extendQueues q r) = .ok (t.extendQueues q r) := by
  obtain ⟨d, hd, hip, ⟨hq, rfl⟩ | ⟨v, rest, hq, rfl⟩⟩ := effectW_ok.1 h
  · obtain rfl := ht rfl
    refine effectW_ok.2 ⟨d, (resolveWrite_extendQueues _ _).trans hd, by rwa [extendQueues_ip], .inl ⟨?_, rfl⟩⟩
    rw [extendQueues_inq, hq, List.append_nil]
  · refine effectW_ok.2 ⟨d, (resolveWrite_extendQueues _ _).trans hd, by rwa [extendQueues_ip],
      .inr ⟨v, rest ++ r, ?_, rfl⟩⟩
    rw [extendQueues_inq, hq, List.cons_append]

/-- Every effect other than that of `IN` is the same up to what the queues are extended by. -/
theorem effectOf_extendQueues {i : Instr} (hi : i.opcode ≠ 3) :
    effectOf i (s.extendQueues q r) = State.extendQueues q r <$> effectOf i s := by
  cases i with
  | add | mul | lt | eq => exact effectRRW_extendQueues
  | jt | jf => exact effectRR_extendQueues
  | inp => exact absurd rfl hi
  | out =>
    rw [effectOf, effectOf]
    refine effectR_extendQueues fun a => ?_
    simp [State.extendQueues, State.pushOut]
  | hlt => rfl
  | arb =>
    rw [effectOf, effectOf]
    refine effectR_extendQueues fun a => ?_
    cases h : checkResult (s.rb.toInt + a.toInt) <;> simp [State.extendQueues, h] <;> rfl

end

section
variable {q r : List I64} {s t : State}

theorem fetch_extendQueues : fetch (s.extendQueues q r) = fetch s := rfl

theorem exec_extendQueues {i : Instr} (h : exec i s = .next t) (ht : t.st = .blocked → r = []) :
    exec i (s.extendQueues q r) = .next (t.extendQueues q r) := by
  by_cases hi : i.opcode = 3
  · cases i with
    | inp m1 m2 m3 =>
      rcases exec_next.1 h with hok | ⟨e, he, rfl⟩
      · exact exec_next.2 (.inl (effectW_ok_extendQueues hok ht))
      · exact exec_next.2 (.inr ⟨e, effectW_error_extendQueues he, rfl⟩)
    | _ => cases hi
  · rw [exec_eq_settle, effectOf_extendQueues hi]
    rcases exec_next.1 h with hok | ⟨e, he, rfl⟩
    · rw [hok]
      exact settle_ok _ _
    · rw [he]
      exact settle_error _ _

/-- A step neither sees the outputs before it, nor, where it does not suspend, the inputs after the oldest. -/
theorem step_extendQueues (h : step s = .next t) (ht : t.st = .blocked → r = []) :
    step (s.extendQueues q r) = .next (t.extendQueues q r) := by
  have hs : s.st = .running := running_of_step h
  rw [step_next (s := s.extendQueues q r) hs, fetch_extendQueues]
  rcases (step_next hs).1 h with ⟨i, hfetch, hexec⟩ | ⟨e, hfetch, rfl⟩
  · exact .inl ⟨i, hfetch, exec_extendQueues hexec ht⟩
  · exact .inr ⟨e, hfetch, rfl⟩

/-- An execution that ends in a running machine is one with further inputs behind those it has. -/
theorem Steps.pushInq (v : I64) (h : Steps s t) (ht : t.st = .running) : Steps (s.pushInq v) (t.pushInq v) := by
  induction h with
  | refl => exact .refl
  | tail _ hstep ih =>
    have hnext := step_extendQueues (q := []) (r := [v]) hstep fun hb => by simp [ht] at hb
    exact (ih (running_of_step hstep)).tail hnext

theorem State.enterRun_pushInq (s : State) (v : I64) : (s.pushInq v).enterRun = s.enterRun.pushInq v := by
  unfold State.enterRun
  rw [State.pushInq_st]
  split <;> rfl

end

/-- Settles O38: the extension of the outputs alone. -/
theorem stepIsBlindToEarlierOutputs : Obligations.StepIsBlindToEarlierOutputs := by
  intro s t q h
  have hext := step_extendQueues (q := q) (r := []) h fun _ => rfl
  simpa only [State.extendQueues, List.append_nil] using hext

/-- Settles O51: with the input pushed first, the execution from `s` passes through the state that suspended, which is
where the resumed `RUN` starts. -/
theorem blockingAndResumingIsHavingHadTheInput : Obligations.BlockingAndResumingIsHavingHadTheInput := by
  intro s t u v h ht
  obtain ⟨p, hsteps, hstep⟩ := h.exists_blocking_step ht
  have hpush : Steps (s.enterRun.pushInq v) (p.pushInq v) := hsteps.pushInq v (running_of_step hstep)
  rw [runReturns_iff, runReturns_iff, State.enterRun_pushInq, State.enterRun_pushInq,
    enterRun_of_blocking_step hstep ht]
  exact and_congr_left hpush.iff_of_stopped

end Sys2Proof.Machine

/-! ## Input and output -/

namespace Sys2Proof.Machine

section
variable {m1 m2 m3 : Mode} {s : State}

/-! ### The checks of the one-operand formats, in the order of R189 -/

/-- An instruction whose effect raises enters that fault from the state it started in (R190). -/
theorem exec_of_effectOf_error {i : Instr} {r : Raise} (h : effectOf i s = .error r) :
    exec i s = .next (s.takeFault r) := exec_next.2 (.inr ⟨r, h, rfl⟩)

theorem effectR_of_not_resolvable {use : I64 → State → Except Raise State} (h : ¬ Resolvable s .p1 m1) :
    effectR use m1 s = .error ⟨.addressOutOfRange, some .p1⟩ := by
  rw [effectR, resolveRead_error h, error_bind]

theorem effectR_of_advance_error {use : I64 → State → Except Raise State} (h : Resolvable s .p1 m1)
    (hip : addrMax < s.ip + 2) : effectR use m1 s = .error ⟨.addressOutOfRange, none⟩ := by
  rw [effectR, resolveRead_ok h, ok_bind, advance_error hip, error_bind]

theorem effectW_of_not_resolvable (hm : m1 ≠ .immediate) (h : ¬ Resolvable s .p1 m1) :
    effectW m1 s = .error ⟨.addressOutOfRange, some .p1⟩ := by
  rw [effectW, (resolveWrite_eq_error hm).2 ⟨rfl, h⟩, error_bind]

/-- The advance is checked before the input queue is looked at (D26). -/
theorem effectW_of_advance_error (hm : m1 ≠ .immediate) (h : Resolvable s .p1 m1) (hip : addrMax < s.ip + 2) :
    effectW m1 s = .error ⟨.addressOutOfRange, none⟩ := by
  rw [effectW, resolveWrite, effAddr_ok hm h, ok_bind, advance_error hip, error_bind]

end

/-- `OUT` and `ARB` differ only in what they do with their operand (R65). -/
theorem effectOf_oneOperand {m1 m2 m3 : Mode} {s : State} {i : Instr} (h : i = .out m1 m2 m3 ∨ i = .arb m1 m2 m3) :
    ∃ use, effectOf i s = effectR use m1 s := by
  obtain rfl | rfl := h
  · exact ⟨fun a t => .ok (t.pushOut a), rfl⟩
  · exact ⟨fun a t => (checkResult (t.rb.toInt + a.toInt)).map t.setRb, rfl⟩

/-- Settles O28: the two checks of each format, which come before what is done with the operand or the queue. -/
theorem oneOperandFormsFaultBeforeTheirEffect : Obligations.OneOperandFormsFaultBeforeTheirEffect := by
  rintro s m1 m2 m3 i (⟨rfl, hm⟩ | hi)
  · exact ⟨fun h => exec_of_effectOf_error (effectW_of_not_resolvable hm h),
      fun h hip => exec_of_effectOf_error (effectW_of_advance_error hm h hip)⟩
  · obtain ⟨use, huse⟩ := effectOf_oneOperand (s := s) hi
    exact ⟨fun h => exec_of_effectOf_error (huse.trans (effectR_of_not_resolvable h)),
      fun h hip => exec_of_effectOf_error (huse.trans (effectR_of_advance_error h hip))⟩

/-! ### Completion -/

/-- Settles O19: the oldest input is written to the destination, and a read there sees it. -/
theorem inputStoresTheOldestValue : Obligations.InputStoresTheOldestValue := by
  intro s m1 m2 m3 d v rest hd hip hq
  have heffect : effectOf (.inp m1 m2 m3) s = .ok (((s.setInq rest).writeCell d v).setIp (s.ip + 2)) :=
    effectW_ok.2 ⟨d, hd, hip, .inr ⟨v, rest, hq, rfl⟩⟩
  refine ⟨_, exec_next.2 (.inl heffect), ?_, fun x hx => ?_, rfl⟩
  · exact (Memory.read_write s.mem d v d).trans (if_pos rfl)
  · exact (Memory.read_write s.mem d v x).trans (if_neg hx)

/-- Settles O20: the empty queue suspends once the destination and the advance are checked. -/
theorem inputSuspendsOnAnEmptyQueue : Obligations.InputSuspendsOnAnEmptyQueue := fun _ _ _ _ d hd hip hq =>
  exec_next.2 (.inl (effectW_ok.2 ⟨d, hd, hip, .inl ⟨hq, rfl⟩⟩))

/-- Settles O21: with its operand resolved and the advance in range, `OUT` is left with its append. -/
theorem outputAppendsItsOperand : Obligations.OutputAppendsItsOperand := by
  intro s m1 m2 m3 a ha hip
  rw [exec_eq_settle, effectOf, effectR_of_resolved ha hip]
  rfl

/-- Settles O44: the two cases of the output queue. -/
theorem popOutputTakesTheOldest : Obligations.PopOutputTakesTheOldest := by
  intro s fuel
  have hpop : transact fuel s .popOutput = some (popOutput s) := rfl
  refine ⟨fun hq => ?_, fun v rest hq => ?_⟩
  · rw [hpop, popOutput, hq]
  · rw [hpop, popOutput, hq]
    rfl

end Sys2Proof.Machine

/-! ## The jumps -/

namespace Sys2Proof.Machine

/-- Every value but 0 is true, the negative ones included (R120). -/
theorem isNonZero_iff {c : I64} : isNonZero c ↔ c.toInt ≠ 0 := bne_iff_ne

/-- Only 0 is false (R121). -/
theorem isZero_iff {c : I64} : isZero c ↔ c.toInt = 0 := beq_iff_eq

/-- `JT` and `JF` differ only in the condition they put on operand 1, here of value `c` (R65, R120, R121). -/
theorem effectOf_jump {m1 m2 m3 : Mode} {s : State} {i : Instr} {taken : Prop} {c : I64}
    (h : (i = .jt m1 m2 m3 ∧ (taken ↔ c.toInt ≠ 0)) ∨ (i = .jf m1 m2 m3 ∧ (taken ↔ c.toInt = 0))) :
    ∃ cond, effectOf i s = effectRR cond m1 m2 s ∧ (cond c ↔ taken) := by
  obtain ⟨rfl, htaken⟩ | ⟨rfl, htaken⟩ := h
  · exact ⟨isNonZero, rfl, isNonZero_iff.trans htaken.symm⟩
  · exact ⟨isZero, rfl, isZero_iff.trans htaken.symm⟩

section
variable {cond : I64 → Bool} {m1 m2 : Mode} {s : State}

/-! ### The checks of the jump format, in the order of R189 -/

theorem effectRR_of_not_resolvable_p1 (h1 : ¬ Resolvable s .p1 m1) :
    effectRR cond m1 m2 s = .error ⟨.addressOutOfRange, some .p1⟩ := by
  rw [effectRR, resolveRead_error h1, error_bind]

/-- Slot 2 is resolved whether or not the jump is taken (D15). -/
theorem effectRR_of_not_resolvable_p2 (h1 : Resolvable s .p1 m1) (h2 : ¬ Resolvable s .p2 m2) :
    effectRR cond m1 m2 s = .error ⟨.addressOutOfRange, some .p2⟩ := by
  rw [effectRR, resolveRead_ok h1, ok_bind, resolveRead_error h2, error_bind]

/-- A jump whose operands resolve raises what the check of the address it goes on at raises. -/
theorem effectRR_of_jumpNext_error {r : Raise} (h1 : Resolvable s .p1 m1) (h2 : Resolvable s .p2 m2)
    (hr : jumpNext s (cond (operandValue s .p1 m1)) (operandValue s .p2 m2) = .error r) :
    effectRR cond m1 m2 s = .error r := by
  rw [effectRR, resolveRead_ok h1, ok_bind, resolveRead_ok h2, ok_bind, hr, error_bind]

theorem jumpNext_of_negative_target {taken : Bool} {g : I64} (htaken : taken) (hg : g.toInt < 0) :
    jumpNext s taken g = .error ⟨.addressOutOfRange, some .p2⟩ := by
  rw [jumpNext, if_pos htaken, checkAddr_error fun h => not_le.2 hg h.1]

theorem jumpNext_of_advance_error {taken : Bool} {g : I64} (hnot : ¬ taken) (hip : addrMax < s.ip + 3) :
    jumpNext s taken g = .error ⟨.addressOutOfRange, none⟩ := by
  rw [jumpNext, if_neg hnot, advance_error hip]

end

/-- Settles O29: the two slots, then the one address that the condition selects. -/
theorem jumpsFault : Obligations.JumpsFault := by
  intro s m1 m2 m3 i taken hi
  obtain ⟨cond, heffect, htaken⟩ := effectOf_jump (s := s) hi
  refine ⟨fun h1 => ?_, fun h1 h2 => ?_, fun h1 h2 ht hg => ?_, fun h1 h2 hnot hip => ?_⟩ <;>
    refine exec_of_effectOf_error (heffect.trans ?_)
  · exact effectRR_of_not_resolvable_p1 h1
  · exact effectRR_of_not_resolvable_p2 h1 h2
  · exact effectRR_of_jumpNext_error h1 h2 (jumpNext_of_negative_target (htaken.2 ht) hg)
  · exact effectRR_of_jumpNext_error h1 h2 (jumpNext_of_advance_error (mt htaken.1 hnot) hip)

/-! ### Completion -/

section
variable {cond : I64 → Bool} {m1 m2 : Mode} {s : State} {i : Instr} {c g : I64}
  (hi : effectOf i s = effectRR cond m1 m2 s) (hc : resolveRead s .p1 m1 = .ok c) (hg : resolveRead s .p2 m2 = .ok g)
include hi hc hg

/-- A taken jump goes on at its target; no value is above `ADDR_MAX`, so the target is an address when it is not
negative. -/
theorem exec_of_taken (htaken : cond c) (hnonneg : 0 ≤ g.toInt) : exec i s = .next (s.setIp g.toInt.toNat) :=
  have heffect : effectRR cond m1 m2 s = .ok (s.setIp g.toInt.toNat) :=
    effectRR_ok.2 ⟨c, g, hc, hg, .inl ⟨htaken, ⟨hnonneg, g.inRange.2⟩, rfl⟩⟩
  exec_next.2 (.inl (hi.trans heffect))

/-- A jump that is not taken goes on past itself, wherever its target is. -/
theorem exec_of_not_taken (hnot : ¬ cond c) (hip : s.ip + 3 ≤ addrMax) : exec i s = .next (s.setIp (s.ip + 3)) :=
  have heffect : effectRR cond m1 m2 s = .ok (s.setIp (s.ip + 3)) :=
    effectRR_ok.2 ⟨c, g, hc, hg, .inr ⟨Bool.eq_false_iff.2 hnot, hip, rfl⟩⟩
  exec_next.2 (.inl (hi.trans heffect))

end

/-- Settles O22: `JT` is taken exactly where operand 1 is not 0. -/
theorem jumpIfTrueSetsIp : Obligations.JumpIfTrueSetsIp := fun _ _ _ _ _ _ hc hg =>
  ⟨fun hne => exec_of_taken rfl hc hg (isNonZero_iff.2 hne),
    fun hzero => exec_of_not_taken rfl hc hg fun htaken => isNonZero_iff.1 htaken hzero⟩

/-- Settles O23: `JF` is taken exactly where operand 1 is 0. -/
theorem jumpIfFalseSetsIp : Obligations.JumpIfFalseSetsIp := fun _ _ _ _ _ _ hc hg =>
  ⟨fun hzero => exec_of_taken rfl hc hg (isZero_iff.2 hzero),
    fun hne => exec_of_not_taken rfl hc hg (mt isZero_iff.1 hne)⟩

end Sys2Proof.Machine

/-! ## The comparisons -/

namespace Sys2Proof.Machine

theorem lessThan_iff {a b : I64} : lessThan a b ↔ a.toInt < b.toInt := decide_eq_true_iff

theorem equals_iff {a b : I64} : equals a b ↔ a.toInt = b.toInt := beq_iff_eq

theorem truthValue_toInt_of_true {c : Bool} (h : c) : (truthValue c).toInt = 1 := by
  rw [truthValue, if_pos h, one_toInt]

theorem truthValue_toInt_of_not {c : Bool} (h : ¬ c) : (truthValue c).toInt = 0 := by
  rw [truthValue, if_neg h, zero_toInt]

/-- `LT` and `EQ` differ only in the comparison `cmp`, which never raises: the destination holds exactly 1 or exactly 0
as `cmp` says (R132), every other cell and all but `ip` are as they were. -/
theorem exec_of_comparison {cmp : I64 → I64 → Bool} {m1 m2 m3 : Mode} {s : State} {a b : I64} {d : Nat} {i : Instr}
    (hi : effectOf i s = effectRRW (fun a b => .ok (truthValue (cmp a b))) m1 m2 m3 s)
    (ha : resolveRead s .p1 m1 = .ok a) (hb : resolveRead s .p2 m2 = .ok b) (hd : resolveWrite s .p3 m3 = .ok d)
    (hip : s.ip + 4 ≤ addrMax) :
    ∃ t, exec i s = .next t ∧ (cmp a b → (t.mem.read d).toInt = 1) ∧ (¬ cmp a b → (t.mem.read d).toInt = 0) ∧
      (∀ x, x ≠ d → t.mem.read x = s.mem.read x) ∧ t = { s with mem := t.mem, ip := s.ip + 4 } := by
  obtain ⟨t, hexec, hread, hframe, hrest⟩ := exec_of_result_ok ha hb hd hip hi rfl
  exact ⟨t, hexec, fun h => by rw [hread, truthValue_toInt_of_true h],
    fun h => by rw [hread, truthValue_toInt_of_not h], hframe, hrest⟩

/-- Settles O17: the comparison is the strict order of the integers. -/
theorem lessThanStoresOneOrZero : Obligations.LessThanStoresOneOrZero := by
  intro s m1 m2 m3 a b d ha hb hd hip
  simpa only [lessThan_iff, not_lt] using exec_of_comparison (i := .lt m1 m2 m3) (cmp := lessThan) rfl ha hb hd hip

/-- Settles O18: the comparison is equality of the integers. -/
theorem equalsStoresOneOrZero : Obligations.EqualsStoresOneOrZero := by
  intro s m1 m2 m3 a b d ha hb hd hip
  simpa only [equals_iff] using exec_of_comparison (i := .eq m1 m2 m3) (cmp := equals) rfl ha hb hd hip

end Sys2Proof.Machine

/-! ## The halt, and the step outside RUNNING -/

namespace Sys2Proof.Machine

/-- Settles O24: the effect of `HLT` resolves no slot and computes no address, so it raises in no state and mode. -/
theorem haltChangesOnlyTheStatus : Obligations.HaltChangesOnlyTheStatus := by
  intro s m1 m2 m3
  have heffect : effectOf (.hlt m1 m2 m3) s = .ok (s.setSt .halted) := rfl
  exact exec_next.2 (.inl heffect)

/-! ### The statuses in which no step is executed, beside `step_of_running` (log 5) -/

section
variable {s : State}

theorem step_of_halted (h : s.st = .halted) : step s = .fault .stepWhileHalted := by
  simp only [step, sequencerStep, h]

theorem step_of_blocked (h : s.st = .blocked) : step s = .fault .stepWhileBlocked := by
  simp only [step, sequencerStep, h]

theorem step_of_faulted (h : s.st = .faulted) : step s = .fault .stepWhileFaulted := by
  simp only [step, sequencerStep, h]

end

/-- Settles O32: one equation of the step for each status other than `RUNNING`. -/
theorem stepStopsOutsideRunning : Obligations.StepStopsOutsideRunning := fun _ =>
  ⟨step_of_halted, step_of_blocked, step_of_faulted⟩

end Sys2Proof.Machine

/-! ## The adjustment of the relative base -/

namespace Sys2Proof.Machine

/-- `ARB` whose new base is in range completes with it, beside `exec_arb_of_overflow` (R146). -/
theorem exec_arb_of_inRange {m1 m2 m3 : Mode} {s : State} {a : I64} (ha : resolveRead s .p1 m1 = .ok a)
    (hip : s.ip + 2 ≤ addrMax) (hbase : InI64 (s.rb.toInt + a.toInt)) :
    exec (.arb m1 m2 m3) s = .next ((s.setRb ⟨s.rb.toInt + a.toInt, hbase⟩).setIp (s.ip + 2)) := by
  rw [exec_eq_settle, effectOf, effectR_of_resolved ha hip, checkResult_ok hbase]
  rfl

/-- Settles O25: the range check answers the exact sum, which becomes the relative base. -/
theorem adjustAddsToTheRelativeBase : Obligations.AdjustAddsToTheRelativeBase :=
  fun _ _ _ _ _ ha hip hbase => ⟨_, exec_arb_of_inRange ha hip hbase, rfl, rfl⟩

end Sys2Proof.Machine

/-! ## The sequencer and the host's transactions -/

namespace Sys2Proof.Machine

/-! ### The invariant outside the step -/

section
variable {s t : State}

/-- The invariant says nothing of the queues. -/
theorem State.Inv.withQueues (h : s.Inv) (q r : List I64) : { s with inq := q, outq := r }.Inv :=
  ⟨h.mem, h.ip, h.record, h.rb⟩

/-- Fault entry writes the record that agrees with `FAULTED` (R190). -/
theorem State.Inv.takeFault (h : s.Inv) (r : Raise) : (s.takeFault r).Inv :=
  ⟨h.mem, h.ip, ⟨fun hst => absurd rfl hst, fun _ => ⟨Option.some_ne_none _, rfl, rfl⟩⟩, h.rb⟩

/-- Outside `FAULTED` the record does not depend on the status. -/
theorem State.Inv.setSt {x : Status} (h : s.Inv) (hs : s.st ≠ .faulted) (hx : x ≠ .faulted) : (s.setSt x).Inv :=
  ⟨h.mem, h.ip, ⟨fun _ => h.record.1 hs, fun hst => absurd hst hx⟩, h.rb⟩

theorem enterRun_of_running (h : s.st = .running) : s.enterRun = s := by simp [State.enterRun, h]

theorem enterRun_of_blocked (h : s.st = .blocked) : s.enterRun = s.setSt .running := by simp [State.enterRun, h]

theorem enterRun_of_halted (h : s.st = .halted) : s.enterRun = s.takeFault ⟨.runAfterHalt, none⟩ := by
  simp [State.enterRun, h]

theorem enterRun_of_faulted (h : s.st = .faulted) : s.enterRun = s := by simp [State.enterRun, h]

theorem State.Inv.enterRun (h : s.Inv) : s.enterRun.Inv := by
  cases hs : s.st with
  | running => rwa [enterRun_of_running hs]
  | halted =>
    rw [enterRun_of_halted hs]
    exact h.takeFault _
  | blocked =>
    rw [enterRun_of_blocked hs]
    exact h.setSt (by simp [hs]) (by decide)
  | faulted => rwa [enterRun_of_faulted hs]

theorem Steps.keeps_inv (h : Steps s t) (hs : s.Inv) : t.Inv := by
  induction h with
  | refl => exact hs
  | tail _ hstep ih => exact everyStepKeepsTheInvariant _ _ ih hstep

theorem RunReturns.keeps_inv (h : RunReturns s t) (hs : s.Inv) : t.Inv :=
  (runReturns_iff.1 h).1.keeps_inv hs.enterRun

end

/-- Settles O41: `LOAD` establishes the invariant, a `RUN` keeps it from its entry on step by step, the others write at
most a queue. -/
theorem everyTransactionKeepsTheInvariant : Obligations.EveryTransactionKeepsTheInvariant := by
  intro fuel s t x r hinv h
  have hallowed := allowed_of_transact h
  rw [transact.eq_def, if_pos hallowed] at h
  cases x with
  | load p =>
    cases h
    exact load_inv s (of_decide_eq_true hallowed)
  | pushInput v =>
    cases h
    exact hinv.withQueues _ _
  | run =>
    obtain ⟨u, hrun, hreply⟩ := Option.map_eq_some_iff.1 h
    cases hreply
    exact RunReturns.keeps_inv ⟨fuel, hrun⟩ hinv
  | popOutput =>
    obtain ⟨q, rfl⟩ := popOutput_eq_setOutq (Option.some.inj h)
    exact hinv.withQueues _ _
  | readMem a c =>
    cases h
    exact hinv

/-! ### The step of a running machine -/

/-- Settles O30: no meaning stops, so what the instruction answers is what the step answers. -/
theorem stepRunsTheDecodedInstruction : Obligations.StepRunsTheDecodedInstruction := by
  intro s i hs hdecode
  obtain ⟨t, hexec⟩ := exec_answers_next i s
  rw [hexec]
  exact (step_next hs).2 (.inl ⟨i, hdecode, hexec⟩)

/-- Settles O31: a word that does not decode is the second of the two things a step can do. -/
theorem stepTakesTheDecodersFault : Obligations.StepTakesTheDecodersFault := fun _ r hs hdecode =>
  (step_next hs).2 (.inr ⟨r, hdecode, rfl⟩)

/-- An instruction that completes leaves the status as it was, unless it is `HLT` or an `IN` that suspends, which change
nothing else (R151). -/
theorem Completes.status_cases {i : Instr} {s t : State} (h : Completes i s t) :
    (t.st = s.st ∧ i.opcode ≠ 99) ∨ (t = s.setSt .halted ∧ i.opcode = 99) ∨
      (t = s.setSt .blocked ∧ i.opcode = 3 ∧ s.inq = []) := by
  cases h with
  | halted hop => exact .inr (.inl ⟨rfl, hop⟩)
  | suspended hop hq => exact .inr (.inr ⟨rfl, hop, hq⟩)
  | stored | received | sent | jumped | adjusted => exact .inl ⟨rfl, by omega⟩

/-- Settles O33: fault entry is the fourth outcome, and an instruction that completes has one of the other three. -/
theorem stepHasFourOutcomes : Obligations.StepHasFourOutcomes := by
  intro s hs
  obtain ⟨t, hstep⟩ := step_answers_next hs
  refine ⟨t, hstep, ?_⟩
  rcases step_cases hstep with ⟨i, hdecode, hi⟩ | ⟨r, rfl⟩
  · have hop : (i.opcode : Int) = (s.mem.read s.ip).toInt % 100 := (Laws.decode_opcode hdecode).1
    rcases hi.status_cases with ⟨hst, hne⟩ | ⟨hhalt, h99⟩ | ⟨hblock, h3, hq⟩
    · have hexec : exec i s = .next t := (stepRunsTheDecodedInstruction s i hs hdecode).symm.trans hstep
      exact .inl ⟨hst.trans hs, i, hdecode, hexec, hne⟩
    · exact .inr (.inl ⟨hhalt, by omega⟩)
    · exact .inr (.inr (.inl ⟨hblock, by omega, hq⟩))
  · exact .inr (.inr (.inr ⟨rfl, rfl⟩))

/-! ### `RUN` -/

section
variable {s t : State}

/-- A `RUN` whose entry leaves the machine stopped returns at once (R154, R155). -/
theorem runReturns_of_enterRun_stopped (h : s.enterRun.st ≠ .running) : RunReturns s t ↔ t = s.enterRun := by
  rw [runReturns_iff]
  constructor
  · exact fun ⟨hsteps, _⟩ => (hsteps.eq_of_stopped h).symm
  · rintro rfl
    exact ⟨.refl, h⟩

/-- A `RUN` of a running machine is one of its steps and, if that leaves it running, a `RUN` from there (R152). -/
theorem runReturns_of_running (hs : s.st = .running) : RunReturns s t ↔
    ∃ u, step s = .next u ∧ (u.st = .running → RunReturns u t) ∧ (u.st ≠ .running → t = u) := by
  rw [runReturns_iff, enterRun_of_running hs]
  constructor
  · rintro ⟨hsteps, ht⟩
    rcases hsteps.cases_head with rfl | ⟨u, hstep, hrest⟩
    · exact absurd hs ht
    · refine ⟨u, hstep, fun hu => runReturns_iff.2 ⟨?_, ht⟩, fun hu => (Steps.eq_of_stopped hu hrest).symm⟩
      rwa [enterRun_of_running hu]
  · rintro ⟨u, hstep, hgo, hstop⟩
    by_cases hu : u.st = .running
    · obtain ⟨hrest, ht⟩ := runReturns_iff.1 (hgo hu)
      rw [enterRun_of_running hu] at hrest
      exact ⟨.head hstep hrest, ht⟩
    · obtain rfl := hstop hu
      exact ⟨.single hstep, hu⟩

end

/-- Settles O46: the entry of the `RUN` in each status, then the loop. -/
theorem runIsTheLoop : Obligations.RunIsTheLoop := by
  intro s t
  refine ⟨runReturns_of_running, fun hs => ?_, fun hs => ?_, fun hs => ?_⟩
  · have hresumed : (s.setSt .running).enterRun = s.setSt .running := enterRun_of_running rfl
    change _ ↔ RunReturns (s.setSt .running) t
    rw [runReturns_iff, runReturns_iff, enterRun_of_blocked hs, hresumed]
  · have henter := enterRun_of_halted hs
    rw [runReturns_of_enterRun_stopped (by simp [henter]), henter]
    rfl
  · have henter := enterRun_of_faulted hs
    rw [runReturns_of_enterRun_stopped (by simp [henter, hs]), henter]

/-- Settles O47: the loop stops only outside `RUNNING`, which leaves the three other statuses. -/
theorem runReturnsATerminalStatus : Obligations.RunReturnsATerminalStatus := by
  intro s t h
  have hstopped := (runReturns_iff.1 h).2
  cases ht : t.st with
  | running => exact absurd ht hstopped
  | halted => exact .inl rfl
  | blocked => exact .inr (.inl rfl)
  | faulted => exact .inr (.inr rfl)

/-! ### The transactions that execute nothing -/

theorem Memory.length_readRange (m : Memory) (a c : Nat) : (m.readRange a c).length = c := by
  induction c generalizing a with
  | zero => rfl
  | succ c ih => rw [Memory.readRange, List.length_cons, ih]

/-- Element `j` of a range is the cell `j` places after its start (R162). -/
theorem Memory.getElem?_readRange (m : Memory) (a : Nat) {c j : Nat} (h : j < c) :
    (m.readRange a c)[j]? = some (m.read (a + j)) := by
  induction c generalizing a j with
  | zero => exact absurd h j.not_lt_zero
  | succ c ih =>
    cases j with
    | zero => rfl
    | succ j =>
      rw [Memory.readRange, List.getElem?_cons_succ, ih (a + 1) (Nat.lt_of_succ_lt_succ h), Nat.add_right_comm]
      rfl

/-- Settles O45: an allowed range is answered cell by cell. -/
theorem readMemReturnsTheRange : Obligations.ReadMemReturnsTheRange := by
  intro s a c fuel hrange
  refine ⟨s.mem.readRange a c, ?_, Memory.length_readRange _ _ _, fun j hj => Memory.getElem?_readRange _ _ hj⟩
  have hallowed : (Transaction.readMem a c).allowed = true := decide_eq_true hrange
  rw [transact, if_pos hallowed]

/-- Settles O43: `PUSH_INPUT` is always allowed and looks at no status. -/
theorem pushInputAppends : Obligations.PushInputAppends := fun _ _ _ => rfl

end Sys2Proof.Machine

/-! ## The table of causes, and the faults of a step -/

namespace Sys2Proof.Machine

/-- The rows of R181 that a step can raise, each cause with the slots of its row. -/
inductive InFaultTable : Raise → Prop
  | unknownOpcode : InFaultTable ⟨.unknownOpcode, none⟩
  | unknownParameterMode (k : Slot) : InFaultTable ⟨.unknownParameterMode, some k⟩
  | immediateWriteTarget (k : Slot) (hk : k = .p3 ∨ k = .p1) : InFaultTable ⟨.immediateWriteTarget, some k⟩
  | instructionWordOutOfRange : InFaultTable ⟨.instructionWordOutOfRange, none⟩
  | addressOutOfRange (k : Option Slot) : InFaultTable ⟨.addressOutOfRange, k⟩
  | arithmeticOverflow : InFaultTable ⟨.arithmeticOverflow, none⟩

/-- What the computation raises, if it raises, is a row of the table. -/
def RaisesInTable {α : Type} (x : Except Raise α) : Prop := ∀ r, x = .error r → InFaultTable r

section
variable {α β : Type} {x : Except Raise α}

theorem RaisesInTable.ok (a : α) : RaisesInTable (.ok a) := nofun

theorem RaisesInTable.error {r : Raise} (h : InFaultTable r) : RaisesInTable (.error r : Except Raise α) := by
  rintro _ ⟨⟩
  exact h

/-- A sequence of checks stays in the table if each of them does. -/
theorem RaisesInTable.bind {f : α → Except Raise β} (hx : RaisesInTable x) (hf : ∀ a, RaisesInTable (f a)) :
    RaisesInTable (x >>= f) := by
  intro r h
  rcases bind_error.1 h with hr | ⟨a, -, hr⟩
  · exact hx r hr
  · exact hf a r hr

theorem RaisesInTable.map (hx : RaisesInTable x) (f : α → β) : RaisesInTable (x.map f) :=
  hx.bind fun a => .ok (f a)

end

/-! ### The decoder -/

theorem decodeMode_raisesInTable (n : Nat) (k : Slot) : RaisesInTable (decodeMode n k) := by
  unfold decodeMode
  extract_lets d
  cases modeOfDigit d with
  | some m => exact .ok m
  | none => exact .error (.unknownParameterMode k)

/-- The write slot of an instruction is 3 or 1 (R66). -/
theorem checkWriteTarget_raisesInTable (i : Instr) : RaisesInTable (checkWriteTarget i) := by
  by_cases hwf : WellFormed i
  · rw [Laws.checkWriteTarget_wellFormed hwf]
    exact .ok i
  · obtain ⟨k, hk, hm⟩ : ∃ k, i.writeSlot = some k ∧ i.mode k = .immediate := by
      simpa using mt Laws.wellFormed_iff.2 hwf
    rw [Laws.checkWriteTarget_immediate hk hm]
    cases k with
    | p1 => exact .error (.immediateWriteTarget .p1 (.inr rfl))
    | p2 => exact absurd hk (Laws.writeSlot_ne_p2 i)
    | p3 => exact .error (.immediateWriteTarget .p3 (.inl rfl))

theorem decode_raisesInTable (arb : Bool) (w : I64) : RaisesInTable (decode arb w) := by
  unfold decode
  split
  · exact .error .instructionWordOutOfRange
  · unfold decodeDigits
    split
    · exact .error .unknownOpcode
    · exact (decodeMode_raisesInTable _ .p1).bind fun _ => (decodeMode_raisesInTable _ .p2).bind fun _ =>
        (decodeMode_raisesInTable _ .p3).bind fun _ => checkWriteTarget_raisesInTable _

/-! ### The address engine and the range check -/

section
variable (s : State)

theorem checkAddr_raisesInTable (k : Option Slot) (z : Int) : RaisesInTable (checkAddr k z) := by
  by_cases h : InMem z
  · rw [checkAddr_ok h]
    exact .ok _
  · rw [checkAddr_error h]
    exact .error (.addressOutOfRange k)

theorem resolveRead_raisesInTable (k : Slot) (m : Mode) : RaisesInTable (resolveRead s k m) := by
  by_cases h : Resolvable s k m
  · rw [resolveRead_ok h]
    exact .ok _
  · rw [resolveRead_error h]
    exact .error (.addressOutOfRange (some k))

/-- A destination in slot 3 or 1 raises the cause of its mode: an address, or Immediate (R94, R95). -/
theorem resolveWrite_raisesInTable {k : Slot} (hk : k = .p3 ∨ k = .p1) (m : Mode) :
    RaisesInTable (resolveWrite s k m) := by
  by_cases hm : m = .immediate
  · subst hm
    exact .error (.immediateWriteTarget k hk)
  · intro r h
    obtain ⟨rfl, -⟩ := (resolveWrite_eq_error hm).1 h
    exact .addressOutOfRange (some k)

theorem advance_raisesInTable (len : Nat) : RaisesInTable (advance s len) := checkAddr_raisesInTable none _

theorem jumpNext_raisesInTable (taken : Bool) (g : I64) : RaisesInTable (jumpNext s taken g) := by
  unfold jumpNext
  split
  · exact checkAddr_raisesInTable (some .p2) _
  · exact advance_raisesInTable s 3

theorem checkResult_raisesInTable (z : Int) : RaisesInTable (checkResult z) := by
  by_cases h : InI64 z
  · rw [checkResult_ok h]
    exact .ok _
  · rw [checkResult_error h]
    exact .error .arithmeticOverflow

/-! ### The formats (R65) -/

theorem effectRRW_raisesInTable {f : I64 → I64 → Except Raise I64} (hf : ∀ a b, RaisesInTable (f a b))
    (m1 m2 m3 : Mode) : RaisesInTable (effectRRW f m1 m2 m3 s) :=
  (resolveRead_raisesInTable s .p1 m1).bind fun a => (resolveRead_raisesInTable s .p2 m2).bind fun b =>
    (resolveWrite_raisesInTable s (.inl rfl) m3).bind fun _ => (advance_raisesInTable s 4).bind fun _ =>
      (hf a b).bind fun _ => .ok _

theorem effectRR_raisesInTable (taken : I64 → Bool) (m1 m2 : Mode) : RaisesInTable (effectRR taken m1 m2 s) :=
  (resolveRead_raisesInTable s .p1 m1).bind fun _ => (resolveRead_raisesInTable s .p2 m2).bind fun _ =>
    (jumpNext_raisesInTable s _ _).bind fun _ => .ok _

theorem effectR_raisesInTable {use : I64 → State → Except Raise State} (huse : ∀ a, RaisesInTable (use a s))
    (m1 : Mode) : RaisesInTable (effectR use m1 s) :=
  (resolveRead_raisesInTable s .p1 m1).bind fun a => (advance_raisesInTable s 2).bind fun _ =>
    (huse a).bind fun _ => .ok _

theorem effectW_raisesInTable (m1 : Mode) : RaisesInTable (effectW m1 s) :=
  (resolveWrite_raisesInTable s (.inr rfl) m1).bind fun _ => (advance_raisesInTable s 2).bind fun _ => .ok _

theorem effectOf_raisesInTable (i : Instr) : RaisesInTable (effectOf i s) := by
  unfold effectOf
  cases i with
  | add m1 m2 m3 | mul m1 m2 m3 => exact effectRRW_raisesInTable s (fun _ _ => checkResult_raisesInTable _) m1 m2 m3
  | lt m1 m2 m3 | eq m1 m2 m3 => exact effectRRW_raisesInTable s (fun _ _ => .ok _) m1 m2 m3
  | jt m1 m2 m3 | jf m1 m2 m3 => exact effectRR_raisesInTable s _ m1 m2
  | inp m1 m2 m3 => exact effectW_raisesInTable s m1
  | out m1 m2 m3 => exact effectR_raisesInTable s (fun a => .ok (s.pushOut a)) m1
  | hlt m1 m2 m3 => exact .ok _
  | arb m1 m2 m3 => exact effectR_raisesInTable s (fun _ => (checkResult_raisesInTable _).map _) m1

end

/-- A step that leaves the machine faulted has entered a fault of the table: an instruction that completes never
faults (R190). -/
theorem step_faulted {s t : State} (h : step s = .next t) (ht : t.st = .faulted) :
    ∃ r, InFaultTable r ∧ t = s.takeFault r := by
  have hs := running_of_step h
  rcases (step_next hs).1 h with ⟨i, -, hexec⟩ | ⟨r, hfetch, rfl⟩
  · rcases exec_next.1 hexec with hok | ⟨r, herror, rfl⟩
    · exact absurd ht ((completes_of_effectOf hok).keeps_record hs).1
    · exact ⟨r, effectOf_raisesInTable s i r herror, rfl⟩
  · exact ⟨r, decode_raisesInTable _ _ r hfetch, rfl⟩

/-- Settles O34: fault entry writes `st` and the record only, and what was raised is a row of the table. -/
theorem faultsArePrecise : Obligations.FaultsArePrecise := by
  intro s t h ht
  obtain ⟨r, htable, rfl⟩ := step_faulted h ht
  refine ⟨r.cause, r.slot, rfl, ?_⟩
  cases htable with
  | immediateWriteTarget k hk => simpa using hk
  | unknownOpcode | unknownParameterMode | instructionWordOutOfRange | addressOutOfRange | arithmeticOverflow => simp

/-! ## The result of a `RUN` -/

/-- Settles O48: of two executions from the entry state one continues the other, and both have stopped. -/
theorem runIsDeterministic : Obligations.RunIsDeterministic := by
  intro s t u ht hu
  obtain ⟨hst, htstop⟩ := runReturns_iff.1 ht
  obtain ⟨hsu, hustop⟩ := runReturns_iff.1 hu
  rcases hst.total hsu with htu | hut
  · exact htu.eq_of_stopped htstop
  · exact (hut.eq_of_stopped hustop).symm

end Sys2Proof.Machine
